-- ==== Sys2Proof/Word.lean ====
section
/-! DEFINITION. The word types of the block (00_scope.md R6, R7, R10): a word is 32 bits, bit 0 the least significant. -/

namespace Sys2Proof

/-- A 32-bit word: an input block, a history word, the filler (00_scope.md R6, R10). -/
abbrev Word := BitVec 32

/-- An output sample: a signed two's-complement integer of `AW = 32` bits (30_encoding.md R65). -/
abbrev Sample := BitVec 32

end Sys2Proof
end

