-- ==== Sys2Proof/Config.lean ====
section
/-! DEFINITION. The configuration record of 00_scope.md R7, its well-formedness `CfgOK` (R8), the named properties of the
tables (40_coefficient_table.md R82, R83, R84), and the one uninterpreted constant: what whoever builds the block supplies. -/

namespace Sys2Proof

/-- The configuration record as written down, checked or not (00_scope.md R7). `ta` and `tb` are indexed by age
(40_coefficient_table.md R81). -/
structure Params where
  /-- number of channels -/
  nch : Nat
  /-- history words of one channel -/
  nw : Nat
  /-- window length and table length, in bits and taps -/
  n : Nat
  /-- length of the zero-padded batch -/
  pad : Nat
  /-- active taps -/
  nact : Nat
  /-- width of the accumulator and of a sample -/
  aw : Nat
  /-- width of a table entry -/
  cw : Nat
  /-- the scale correction, a left shift -/
  shift : Nat
  /-- the reset value of every history word -/
  filler : Word
  /-- phase A table, feeds slot 0 -/
  ta : List Int
  /-- phase B table, feeds slot 1 -/
  tb : List Int
deriving DecidableEq, Repr

/-- The sum of the magnitudes of a table, the left factor of 40_coefficient_table.md R84. -/
def tableMass (t : List Int) : Nat := (t.map Int.natAbs).sum

/-- Every entry is a signed integer of `cw` bits (00_scope.md R8). -/
abbrev EntriesFit (cw : Nat) (t : List Int) : Prop :=
  ∀ v ∈ t, -(2 ^ (cw - 1) : Int) ≤ v ∧ v ≤ 2 ^ (cw - 1) - 1

/-- `CoeffOK`: no window can overflow the accumulator or the sample (40_coefficient_table.md R84). -/
abbrev CoeffOK (p : Params) : Prop :=
  tableMass p.ta * 2 ^ p.shift ≤ 2 ^ (p.aw - 1) - 1 ∧ tableMass p.tb * 2 ^ p.shift ≤ 2 ^ (p.aw - 1) - 1

/-- `CfgOK`: the configurations the rules are stated for (00_scope.md R8). -/
abbrev CfgOK (p : Params) : Prop :=
  1 ≤ p.nch ∧ 1 ≤ p.nw ∧ p.n = 32 * p.nw ∧ p.pad = 16 ∧ p.pad < p.n ∧ p.nact = p.n - p.pad ∧ p.aw = 32 ∧ p.cw = 32 ∧
    p.shift < p.aw ∧ (p.ta.length = p.n ∧ p.tb.length = p.n) ∧ (EntriesFit p.cw p.ta ∧ EntriesFit p.cw p.tb) ∧ CoeffOK p

/-- Why a configuration is refused: the first condition of 00_scope.md R8 that fails. -/
inductive CfgProblem where
  | noChannels
  | noWords
  | windowLength
  | padLength
  | padCoversWindow
  | activeTaps
  | accumulatorWidth
  | entryWidth
  | shiftRange
  | tableLength
  | entryRange
  | coefficientsOverflow
deriving DecidableEq, Repr

/-- A configuration that is not well formed is refused, by name (00_scope.md R8, 92_eei_decisions.md D14). -/
def Params.refusal (p : Params) : Option CfgProblem :=
  if ¬ 1 ≤ p.nch then some .noChannels
  else if ¬ 1 ≤ p.nw then some .noWords
  else if ¬ p.n = 32 * p.nw then some .windowLength
  else if ¬ p.pad = 16 then some .padLength
  else if ¬ p.pad < p.n then some .padCoversWindow
  else if ¬ p.nact = p.n - p.pad then some .activeTaps
  else if ¬ p.aw = 32 then some .accumulatorWidth
  else if ¬ p.cw = 32 then some .entryWidth
  else if ¬ p.shift < p.aw then some .shiftRange
  else if ¬ (p.ta.length = p.n ∧ p.tb.length = p.n) then some .tableLength
  else if ¬ (EntriesFit p.cw p.ta ∧ EntriesFit p.cw p.tb) then some .entryRange
  else if ¬ CoeffOK p then some .coefficientsOverflow
  else none

/-- A well-formed configuration: the record with the proof of `CfgOK`, so that no other can be given to the machine
(00_scope.md R8; DESIGN CHOICE, safe, log 3). -/
structure Cfg extends Params where
  ok : CfgOK toParams
deriving DecidableEq, Repr

/-- The two phases: A is table `TA` and output slot 0, B is `TB` and slot 1 (40_coefficient_table.md R80,
43_decimator.md R120). -/
inductive Phase where
  | a
  | b
deriving DecidableEq, Repr

/-- The table of a phase (40_coefficient_table.md R80). -/
def Params.table (p : Params) : Phase → List Int
  | .a => p.ta
  | .b => p.tb

/-- `PadZero`: `TA` is blind to the newest batch and `TB` to the oldest (40_coefficient_table.md R82). A named property a
claim may assume, no condition of `CfgOK`. -/
abbrev PadZero (p : Params) : Prop :=
  (∀ a < p.pad, p.ta.getD a 0 = 0) ∧ (∀ a < p.n, p.n - p.pad ≤ a → p.tb.getD a 0 = 0)

/-- `PhasePair` with the prototype filter `g`: `TB` is `g`, and `TA` is `g` moved `PAD` positions toward the old end
(40_coefficient_table.md R83). -/
abbrev PhasePair (p : Params) (g : List Int) : Prop :=
  g.length = p.nact ∧ ∀ a < p.nact, p.tb.getD a 0 = g.getD a 0 ∧ p.ta.getD (a + p.pad) 0 = g.getD a 0

namespace Config

/-- What the reference configuration leaves to whoever builds the block: `NCH`, `SHIFT`, `TA`, `TB` (00_scope.md R7, R8:
OPEN). -/
structure Open where
  nch : Nat
  shift : Nat
  ta : List Int
  tb : List Int
deriving DecidableEq, Repr

/-- The reference configuration with its open fields filled in (00_scope.md R7, R8: `NW = 8`, `N = 256`, `NACT = 240`,
`PAD = 16`, `AW = CW = 32`, `FILLER = 0x55555555`). -/
def Open.fill (o : Open) : Params where
  nch := o.nch
  nw := 8
  n := 256
  pad := 16
  nact := 240
  aw := 32
  cw := 32
  shift := o.shift
  filler := 0x55555555#32
  ta := o.ta
  tb := o.tb

/-- A choice of the open fields that makes the reference configuration well formed. The default values only show that there
is one; nothing uses them. -/
structure Supplied extends Open where
  nch := 1
  shift := 0
  ta := List.replicate 256 0
  tb := List.replicate 256 0
  ok : CfgOK toOpen.fill := by decide +kernel
deriving Inhabited

/-- The open parameters of the reference configuration: no body, so nothing can be proved of them but `CfgOK`
(00_scope.md R7, R8; 93_implementation_defined.md U10, U14, U15; log 2). -/
opaque supplied : Supplied

/-- The reference configuration, `NCH`, `SHIFT`, `TA` and `TB` left open (00_scope.md R8). -/
def reference : Cfg where
  toParams := supplied.toOpen.fill
  ok := supplied.ok

end Config

end Sys2Proof
end

