-- ==== Sys2Proof/Syntax.lean ====
section
/-! DEFINITION. The commands of the block, the transfer that carries one on the command port, what the host can do at the
port, and the text forms of 30_encoding.md R72, R73. -/

namespace Sys2Proof

/-- The command set: one constructor for each row of the opcode table (30_encoding.md R62, 43_decimator.md R115). -/
inductive Instr where
  /-- no effect (43_decimator.md R116) -/
  | nop
  /-- binds the two coefficient tables (43_decimator.md R117) -/
  | init
  /-- one 32-bit block for each channel, in channel order (43_decimator.md R118, 30_encoding.md R63). The list may have any
  length: a length other than `NCH` is the fault `BAD_SHAPE` (60_exceptions.md R139; log 7) -/
  | process (blocks : List Word)
  /-- the reserved code (43_decimator.md R122) -/
  | rsvd
deriving DecidableEq, Repr

/-- What is on the command port in one transfer: the command word of 30_encoding.md R61 (`cmd`, bits 1:0) and the data
operand (R63). -/
structure Transfer where
  cmd : BitVec 2
  data : List Word
deriving DecidableEq, Repr

/-- What the host does to the block between two transitions: assert the reset input or present a command
(30_encoding.md R61, R71; 70_reset_and_hazards.md R161). -/
inductive HostInput where
  | reset
  | command (t : Transfer)
deriving DecidableEq, Repr

/-- One line of program text (30_encoding.md R72, R73). -/
inductive Line where
  | reset
  | nop
  | init
  | process (blocks : List Word)
  | rsvd
  /-- `FEED k, x` -/
  | feed (k : Nat) (x : Word)
deriving DecidableEq, Repr

end Sys2Proof
end

