-- ==== Sys2Proof/WellFormed.lean ====
section
/-! DEFINITION. Well-formed commands (30_encoding.md R63). The well-formedness of the configuration, `CfgOK`, stands in
Config.lean (00_scope.md R8). -/

namespace Sys2Proof

/-- A command is well formed for a block of `nch` channels when its operand has exactly one word for each channel
(30_encoding.md R63); a command without operand always is. -/
def Instr.wf (nch : Nat) : Instr → Bool
  | .nop => true
  | .init => true
  | .process blocks => blocks.length == nch
  | .rsvd => true

end Sys2Proof
end

