-- ==== Sys2Proof/Decode.lean ====
section
/-! DEFINITION. The decoder of the command port (30_encoding.md R61, R62), the encoder, the table's numbering of a
transfer's bits, and the expansion of program text (R72, R73). -/

namespace Sys2Proof

/-- The command on the port: total, since all four codes of the 2-bit command word are assigned (30_encoding.md R62, R68).
A data operand beside a command that has none is ignored (R62 says so of `RSVD`; log 8). -/
def decode (t : Transfer) : Instr :=
  if t.cmd = 0b00#2 then .nop
  else if t.cmd = 0b01#2 then .init
  else if t.cmd = 0b10#2 then .process t.data
  else .rsvd

/-- The transfer that presents a command (30_encoding.md R62, R63). -/
def encode : Instr → Transfer
  | .nop => ⟨0b00#2, []⟩
  | .init => ⟨0b01#2, []⟩
  | .process blocks => ⟨0b10#2, blocks⟩
  | .rsvd => ⟨0b11#2, []⟩

/-- Data words laid one after another, the first in the least significant bits: the words of the operand in increasing
channel order (30_encoding.md R63). -/
def packWords : List Word → Nat
  | [] => 0
  | x :: xs => x.toNat + 2 ^ 32 * packWords xs

/-- The first `k` data words of a packed operand. -/
def unpackWords : Nat → Nat → List Word
  | 0, _ => []
  | k + 1, w => BitVec.ofNat 32 w :: unpackWords k (w / 2 ^ 32)

/-- The transfer whose bits are `w`, of which `nbits` are given and the rest are 0: the command word in bits 1:0 of the
first byte, then, for `PROCESS`, `nch` data words from bit 8 on (log 12; the zero fill serves a table word that is shorter
than its command and no transfer on the port, log 20). -/
def transferOfTableWord (nch nbits w : Nat) : Transfer :=
  let bits := w % 2 ^ nbits
  let cmd := BitVec.ofNat 2 bits
  { cmd := cmd, data := if cmd = 0b10#2 then unpackWords nch (bits / 2 ^ 8) else [] }

/-- The command read from a table word by a block of `nch` channels. -/
def decodeTableWordFor (nch nbits w : Nat) : Option Instr := some (decode (transferOfTableWord nch nbits w))

/-- The command read from a table word by the block as configured (`Config.reference`). -/
def decodeTableWord (nbits w : Nat) : Option Instr := decodeTableWordFor Config.reference.nch nbits w

/-- The bits of a command in the table's numbering, and how many they are. -/
def encodeTableWord (i : Instr) : Nat := (encode i).cmd.toNat + 2 ^ 8 * packWords (encode i).data

/-- The number of bits of a command in the table's numbering: a byte for the command word and 32 for each data word. -/
def tableWordBits (i : Instr) : Nat := 8 + 32 * (encode i).data.length

/-- What the host does for one line of program text, on a block of `nch` channels (30_encoding.md R72; `FEED k, x` is `k`
successive `PROCESS` commands that give every channel the block `x`, R73). -/
def Line.inputs (nch : Nat) : Line → List HostInput
  | .reset => [.reset]
  | .nop => [.command (encode .nop)]
  | .init => [.command (encode .init)]
  | .process blocks => [.command (encode (.process blocks))]
  | .rsvd => [.command (encode .rsvd)]
  | .feed k x => List.replicate k (.command (encode (.process (List.replicate nch x))))

end Sys2Proof
end

