-- ==== Sys2Proof/Machine/State.lean ====
section
/-! DEFINITION. The state of the block (10_state.md R20), what the model carries beside it, the reasons a step can stop, and
the state after reset (10_state.md R32, R33; 70_reset_and_hazards.md R155). -/

namespace Sys2Proof.Machine

/-- What `cause` can hold: five of the eight codes, the others are never produced (60_exceptions.md R135,
93_implementation_defined.md U17). -/
inductive Cause where
  /-- code 0, no fault -/
  | noFault
  /-- code 1, a `PROCESS` before `INIT` (R136) -/
  | uninitUse
  /-- code 2, a second `INIT` (R137) -/
  | reinit
  /-- code 3, the reserved command code (R138) -/
  | illegalCmd
  /-- code 4, a `PROCESS` whose operand has not exactly `NCH` words (R139) -/
  | badShape
deriving DecidableEq, Repr

/-- The result of one `PROCESS`, slot-major: `OUT[0][c]` is `out0[c]` and `OUT[1][c]` is `out1[c]` (30_encoding.md R65). -/
structure Samples where
  out0 : List Sample
  out1 : List Sample
deriving DecidableEq, Repr

/-- Why the machine stops. The four faults of the block (60_exceptions.md R135) are none of these: the spec describes their
entry, so they are next states with `fault = 1` (log 9). -/
inductive Fault where
  /-- Raised by `PROCESS` alone, in a state whose history file has not `NCH` rows of `NW` words: it would read a history
  word that does not exist (20_memory.md R40, 10_state.md R21). No run reaches such a state. Safe (log 10). -/
  | noSuchHistoryWord
deriving DecidableEq, Repr

/-- Why an instruction has no meaning. -/
inductive Refusal where
  /-- A command without a meaning in the model. Raised by no arm: every row of the opcode table has its meaning. Safe. -/
  | notModelled (mnemonic : String)
deriving DecidableEq, Repr

/-- The machine. `hist`, `bound`, `fault` and `cause` are the whole state of the block (10_state.md R20); `cfg` is the
parameter of the step function that the host's form of `step` has no other place for (R27; log 1); `port` and `results` are
the two sides of the boundary: what the host presents next, and what the block has delivered (70_reset_and_hazards.md R161,
R162; log 4, log 6). -/
structure State where
  /-- the configuration; no step changes it (10_state.md R27) -/
  cfg : Cfg
  /-- the history register file `H`: a row for each channel, word 0 the most recent (10_state.md R21) -/
  hist : List (List Word)
  /-- the tables are usable (10_state.md R24) -/
  bound : Bool
  /-- the sticky fault flag (10_state.md R25) -/
  fault : Bool
  /-- the code of the first fault (10_state.md R25) -/
  cause : Cause
  /-- what the host presents, the next input first -/
  port : List HostInput
  /-- the sample arrays delivered, the oldest first -/
  results : List Samples
deriving DecidableEq, Repr

/-- Right after reset, nothing presented and nothing delivered: every history word `FILLER`, the flags 0
(10_state.md R32, R33), the reference configuration (log 2). -/
def State.reset : State where
  cfg := Config.reference
  hist := List.replicate Config.reference.nch (List.replicate Config.reference.nw Config.reference.filler)
  bound := false
  fault := false
  cause := .noFault
  port := []
  results := []

end Sys2Proof.Machine
end

