-- ==== Sys2Proof/Machine/Flags.lean ====
section
/-! DEFINITION. The flags as the host sees them: the cause codes, the status register and the lifecycle mode
(10_state.md R26, 30_encoding.md R67, 60_exceptions.md R135, R148). -/

namespace Sys2Proof.Machine

/-- The 3-bit code of a cause (60_exceptions.md R135). -/
def Cause.code : Cause → BitVec 3
  | .noFault => 0
  | .uninitUse => 1
  | .reinit => 2
  | .illegalCmd => 3
  | .badShape => 4

/-- `STATUS`, the 5-bit word `cause[2:0], fault, bound`, bit 0 `bound` (10_state.md R26, 30_encoding.md R67): a view of the
flags, so reading it has no side effect (20_memory.md R47). -/
def State.status (s : State) : BitVec 5 := s.cause.code ++ BitVec.ofBool s.fault ++ BitVec.ofBool s.bound

/-- The lifecycle modes (60_exceptions.md R148). -/
inductive Mode where
  | unbound
  | ready
  | faulted
deriving DecidableEq, Repr

/-- The mode, read off `STATUS` (10_state.md R26, 60_exceptions.md R148). -/
def State.mode (s : State) : Mode := if s.fault then .faulted else if s.bound then .ready else .unbound

end Sys2Proof.Machine
end

