-- ==== Sys2Proof/Machine/Operands.lean ====
section
/-! DEFINITION. The operands of the micro-operations: bits of a block and of a window, signs, table entries, and the sample
an accumulator becomes (20_memory.md R42, R44; 30_encoding.md R69; 42_convolution.md R101; 43_decimator.md R121). -/

namespace Sys2Proof.Machine

/-- Bit `b` of a block: it arrived `b` bit periods after bit 0, the oldest (20_memory.md R42). -/
def blockBit (x : Word) (b : Nat) : Bool := x.getLsbD b

/-- The window bit of age `a` of one channel's words, age 0 the newest (20_memory.md R44). An age of `32 * words` or more
does not exist; no meaning asks for one. -/
def win (row : List Word) (a : Nat) : Bool := blockBit (row.getD (a / 32) 0) (31 - a % 32)

/-- The sign a bit stands for: `+1` for 1 and `-1` for 0 (42_convolution.md R101). -/
def sgn (b : Bool) : Int := if b then 1 else -1

/-- Entry `a` of a coefficient table, read as a signed integer (00_scope.md R11, 30_encoding.md R69). -/
def memRead (t : List Int) (a : Nat) : Int := t.getD a 0

/-- `SCALE(acc) = acc << SHIFT` as a signed sample (43_decimator.md R121). -/
def scale (shift : Nat) (acc : Int) : Sample := BitVec.ofInt 32 (acc * 2 ^ shift)

/-- The samples of one slot of a result: phase A fills slot 0, phase B slot 1 (43_decimator.md R120). -/
def Samples.slot (r : Samples) : Phase → List Sample
  | .a => r.out0
  | .b => r.out1

/-- The order in which a narrow port transfers a result: slot 0 for every channel, then slot 1 (30_encoding.md R65). -/
def Samples.transferOrder (r : Samples) : List Sample := r.out0 ++ r.out1

/-- The decimated stream of channel `c`: call after call, slot 0 then slot 1 (43_decimator.md R120, R123). -/
def decimated (c : Nat) (results : List Samples) : List Sample :=
  results.flatMap fun r => [r.out0.getD c 0, r.out1.getD c 0]

end Sys2Proof.Machine
end

