-- ==== Sys2Proof/Machine/Ops.lean ====
section
/-! DEFINITION. The named operations: the micro-operations of a lane (41_history_window.md R91, R92; 42_convolution.md R100;
43_decimator.md R119), entering the fault state (60_exceptions.md R144) and leaving it (70_reset_and_hazards.md R155), and
taking the next input from the port (30_encoding.md R61, R71). -/

namespace Sys2Proof.Machine

/-- `INGEST`: the new block overwrites word 0 (41_history_window.md R91). -/
def ingest (row : List Word) (x : Word) : List Word := row.set 0 x

/-- `ADVANCE` as a shift register moves it: every word goes one place older, word 0 keeps its value, the oldest is
discarded (41_history_window.md R92). -/
def advance : List Word → List Word
  | [] => []
  | newest :: older => newest :: (newest :: older).dropLast

/-- `CONV`: the window's bits as signs, each times its tap, summed over the ages `0 .. n-1` (42_convolution.md R100). The
accumulator is an integer, since `CoeffOK` excludes overflow (R103). -/
def conv (n : Nat) (row : List Word) (t : List Int) : Int :=
  (List.range n).foldl (fun acc a => acc + sgn (win row a) * memRead t a) 0

/-- What one lane leaves: its history row and its two samples. -/
structure LaneResult where
  row : List Word
  sample0 : Sample
  sample1 : Sample
deriving DecidableEq, Repr

/-- `Lane(c)`, the work of one channel in one `PROCESS`, in the fixed order of 43_decimator.md R119. -/
def lane (cfg : Cfg) (row : List Word) (x : Word) : LaneResult :=
  let window := ingest row x
  let acc0 := conv cfg.n window cfg.ta
  let acc1 := conv cfg.n window cfg.tb
  let sample0 := scale cfg.shift acc0
  let sample1 := scale cfg.shift acc1
  { row := advance window, sample0 := sample0, sample1 := sample1 }

/-- Every lane of one `PROCESS`: channel `c` has row `c` of the history and block `c` of the operand. The lanes share
nothing, so their order is free (20_memory.md R51; log 11). -/
def runLanes (cfg : Cfg) (hist : List (List Word)) (blocks : List Word) : List LaneResult :=
  List.zipWith (lane cfg) hist blocks

/-- The effect of a `PROCESS` that runs: every history row advanced, one array of samples delivered
(43_decimator.md R118). -/
def processLanes (blocks : List Word) (s : State) : State :=
  let lanes := runLanes s.cfg s.hist blocks
  { s with
    hist := lanes.map LaneResult.row
    results := s.results ++ [{ out0 := lanes.map LaneResult.sample0, out1 := lanes.map LaneResult.sample1 }] }

/-- The history file has a row for each channel and `NW` words in each (10_state.md R21): every index the block uses
exists (20_memory.md R40). -/
abbrev State.Shaped (s : State) : Prop := s.hist.length = s.cfg.nch ∧ ∀ row ∈ s.hist, row.length = s.cfg.nw

/-- `raise Fault(code)`: `fault` and `cause` and nothing else (60_exceptions.md R144). -/
def raiseFault (code : Cause) (s : State) : State := { s with fault := true, cause := code }

/-- The test every command starts with: in the fault state it is ignored completely (43_decimator.md R115,
60_exceptions.md R145). -/
def unlessFaulted (s : State) (run : State → Host.Outcome State Fault Refusal) : Host.Outcome State Fault Refusal :=
  if s.fault then .next s else run s

/-- The history after reset: `FILLER` in every word (10_state.md R32). -/
def fillerHistory (cfg : Cfg) : List (List Word) := List.replicate cfg.nch (List.replicate cfg.nw cfg.filler)

/-- `RESET`, the only way out of the fault state (70_reset_and_hazards.md R155, 60_exceptions.md R146). It does not touch
the configuration, and delivers no sample. -/
def assertReset (s : State) : State :=
  { s with hist := fillerHistory s.cfg, bound := false, fault := false, cause := .noFault }

/-- The next input the host presents, taken off the port (30_encoding.md R61: one at a time). -/
def nextInput (s : State) : Option (HostInput × State) :=
  match s.port with
  | [] => none
  | input :: rest => some (input, { s with port := rest })

/-- Nothing presented: the block is idle and keeps its state (60_exceptions.md R150; log 5). -/
def idle (s : State) : State := s

/-- The host presents a transfer before everything else it has queued. -/
def present (t : Transfer) (s : State) : State := { s with port := .command t :: s.port }

end Sys2Proof.Machine
end

