-- ==== Sys2Proof/Machine/Lifecycle.lean ====
section
/-! DEFINITION. The meanings of `NOP`, `INIT` and `RSVD` (43_decimator.md R116, R117, R122). -/

namespace Sys2Proof.Machine

/-- `NOP`: no effect, in every mode (43_decimator.md R116). -/
def execNop (s : State) : Host.Outcome State Fault Refusal :=
  unlessFaulted s fun s => .next s

/-- `INIT`: sets `bound`; `REINIT` when it is set (43_decimator.md R117, 60_exceptions.md R137). It does not touch the
history. -/
def execInit (s : State) : Host.Outcome State Fault Refusal :=
  unlessFaulted s fun s =>
    if s.bound then .next (raiseFault .reinit s)
    else .next { s with bound := true }

/-- `RSVD`: `ILLEGAL_CMD`, bound or not (43_decimator.md R122, 60_exceptions.md R138). -/
def execRsvd (s : State) : Host.Outcome State Fault Refusal :=
  unlessFaulted s fun s => .next (raiseFault .illegalCmd s)

end Sys2Proof.Machine
end

