-- ==== Sys2Proof/Machine/Process.lean ====
section
/-! DEFINITION. The meaning of `PROCESS` (43_decimator.md R118). -/

namespace Sys2Proof.Machine

/-- `PROCESS IN`: the two tests, in the order of 60_exceptions.md R143, made once before any lane starts, then every lane
(43_decimator.md R118, R119). -/
def execProcess (blocks : List Word) (s : State) : Host.Outcome State Fault Refusal :=
  unlessFaulted s fun s =>
    if s.bound = false then .next (raiseFault .uninitUse s)
    else if blocks.length ≠ s.cfg.nch then .next (raiseFault .badShape s)
    else if s.Shaped then .next (processLanes blocks s)
    else .fault .noSuchHistoryWord

end Sys2Proof.Machine
end

