-- ==== Sys2Proof/Machine/Step.lean ====
section
/-! DEFINITION. One step: the next input of the host, decoded and executed (00_scope.md R9, 30_encoding.md R61, R71). -/

namespace Sys2Proof.Machine

/-- One transition of the machine: the reset input, a command, or, with nothing presented, idling (log 4, log 5). -/
def step (s : State) : Host.Outcome State Fault Refusal :=
  match nextInput s with
  | none => .next (idle s)
  | some (.reset, s') => .next (assertReset s')
  | some (.command t, s') => exec (decode t) s'

/-- The state in which the host presents, next, the command whose table bits are `w` (log 12, log 20). -/
def State.withFetchWord (s : State) (nbits w : Nat) : State := present (transferOfTableWord s.cfg.nch nbits w) s

end Sys2Proof.Machine
end

