-- ==== Sys2Proof/Machine/Schedule.lean ====
section
/-! DEFINITION. The six micro-operations of a lane, one at a time, under any schedule of the lanes (43_decimator.md R119,
20_memory.md R51, 60_exceptions.md R149), and `ADVANCE` as the loop its rule writes (41_history_window.md R92). `step` does not use this file: a command is one atomic transition
(00_scope.md R9). It is here so that the freedom of lane order is a statement, and the shift register `advance` is held against the loop. -/

namespace Sys2Proof.Machine

/-- A lane in the middle of a `PROCESS`: its channel's registers, its block, its two accumulators and samples, and how many
of its micro-operations have run. -/
structure LaneRun where
  row : List Word
  block : Word
  acc0 : Int
  acc1 : Int
  sample0 : Sample
  sample1 : Sample
  done : Nat
deriving DecidableEq, Repr

/-- A lane before its first micro-operation: accumulators at zero (10_state.md R28). -/
def LaneRun.start (row : List Word) (x : Word) : LaneRun :=
  { row := row, block := x, acc0 := 0, acc1 := 0, sample0 := 0, sample1 := 0, done := 0 }

/-- The next micro-operation of a lane, in the order of 43_decimator.md R119; none is left after six. -/
def LaneRun.micro (cfg : Cfg) (l : LaneRun) : LaneRun :=
  match l.done with
  | 0 => { l with row := ingest l.row l.block, done := 1 }
  | 1 => { l with acc0 := conv cfg.n l.row cfg.ta, done := 2 }
  | 2 => { l with acc1 := conv cfg.n l.row cfg.tb, done := 3 }
  | 3 => { l with sample0 := scale cfg.shift l.acc0, done := 4 }
  | 4 => { l with sample1 := scale cfg.shift l.acc1, done := 5 }
  | 5 => { l with row := advance l.row, done := 6 }
  | _ => l

/-- Lane by lane as the schedule says: each entry lets that lane do its next micro-operation. -/
def runSchedule (cfg : Cfg) (schedule : List Nat) (lanes : List LaneRun) : List LaneRun :=
  schedule.foldl (fun ls c => ls.modify c (LaneRun.micro cfg)) lanes

/-- What a lane that has finished leaves. -/
def LaneRun.result (l : LaneRun) : LaneResult := { row := l.row, sample0 := l.sample0, sample1 := l.sample1 }

/-- The loop of 41_history_window.md R92 from word `w` down to word 1: each word takes the one before it. -/
def advanceLoop : Nat → List Word → List Word
  | 0, row => row
  | w + 1, row => advanceLoop w (row.set (w + 1) (row.getD w 0))

end Sys2Proof.Machine
end

