-- ==== Sys2Proof/Safety.lean ====
section
/-! DEFINITION. What claims are stated in terms of: a good end, the launch premises (70_reset_and_hazards.md R162, R163), the
invariant of the machine, and the stream of one channel (41_history_window.md R94, R95; 43_decimator.md R123). -/

namespace Sys2Proof.Machine

/-- A good end of a run: no fault (70_reset_and_hazards.md R162). Also the premise `NoFault` of R163. -/
abbrev GoodEnd (s : State) : Prop := s.fault = false

/-- The observable result of a run that ends in `s`: the sample arrays in order and the final `STATUS`
(70_reset_and_hazards.md R162). -/
def observed (s : State) : List Samples × BitVec 5 := (s.results, s.status)

/-- `Fresh`: the block is as reset leaves it (70_reset_and_hazards.md R155, R163). -/
abbrev Fresh (s : State) : Prop :=
  s.hist = fillerHistory s.cfg ∧ s.bound = false ∧ s.fault = false ∧ s.cause = .noFault

/-- `Ready`: no fault and the tables bound (70_reset_and_hazards.md R163). -/
abbrev Ready (s : State) : Prop := s.fault = false ∧ s.bound = true

/-- Where a `PROCESS` with this operand runs: the block is ready, the operand has a word for each channel, and every
history register exists (43_decimator.md R118, 10_state.md R21). -/
abbrev CanProcess (blocks : List Word) (s : State) : Prop :=
  Ready s ∧ blocks.length = s.cfg.nch ∧ s.Shaped

/-- A `PROCESS` that runs from `s` to `t` and delivers the samples `r`. -/
abbrev ProcessesTo (blocks : List Word) (s t : State) (r : Samples) : Prop :=
  exec (.process blocks) s = .next t ∧ t.results = s.results ++ [r]

/-- The history word `H[c][w]` (10_state.md R21). -/
def State.word (s : State) (c w : Nat) : Word := (s.hist.getD c []).getD w 0

/-- The window of channel `c` at convolution time: its history words with the new block in word 0
(41_history_window.md R91, R94). -/
def windowOf (s : State) (blocks : List Word) (c : Nat) : List Word := ingest (s.hist.getD c []) (blocks.getD c 0)

/-- The sample of channel `c` in the slot of phase `p` (30_encoding.md R65). -/
def Samples.at (r : Samples) (p : Phase) (c : Nat) : Sample := (r.slot p).getD c 0

/-- The first fault condition that holds, in the order of 60_exceptions.md R143 after the test of `fault`. -/
def firstFault (i : Instr) (s : State) : Option Cause :=
  match i with
  | .rsvd => some .illegalCmd
  | .init => if s.bound then some .reinit else none
  | .process blocks =>
    if s.bound = false then some .uninitUse else if blocks.length ≠ s.cfg.nch then some .badShape else none
  | .nop => none

/-! ### The invariant -/

/-- The flags say the same thing: a fault has a code, and each code was raised where 60_exceptions.md R135 says. -/
abbrev FlagsAgree (s : State) : Prop :=
  (s.fault = true ↔ s.cause ≠ .noFault) ∧ (s.cause = .uninitUse → s.bound = false) ∧
    (s.cause = .reinit ∨ s.cause = .badShape → s.bound = true)

/-- While the tables are not bound the history is still filler: only `PROCESS` writes it, and it needs `bound`
(10_state.md R22, R24, R32). -/
abbrev UnboundIsFiller (s : State) : Prop := s.bound = false → s.hist = fillerHistory s.cfg

/-- Between commands word 0 of every channel repeats word 1 (41_history_window.md R95). -/
abbrev IdleCopies (s : State) : Prop := ∀ row ∈ s.hist, 2 ≤ row.length → row.getD 0 0 = row.getD 1 0

/-- What every delivered array looks like: a sample for each channel in each slot, its low `SHIFT` bits zero, and within the
bound of the slot's table (30_encoding.md R65, 42_convolution.md R103). -/
abbrev ResultsFit (s : State) : Prop :=
  ∀ r ∈ s.results, ∀ p : Phase, (r.slot p).length = s.cfg.nch ∧
    ∀ v ∈ r.slot p, (2 ^ s.cfg.shift : Int) ∣ v.toInt ∧ |v.toInt| ≤ (tableMass (s.cfg.table p) * 2 ^ s.cfg.shift : Nat)

/-- The invariant of the machine, which every step keeps from any state that has it. -/
abbrev Inv (s : State) : Prop := s.Shaped ∧ FlagsAgree s ∧ UnboundIsFiller s ∧ IdleCopies s ∧ ResultsFit s

/-! ### The stream of one channel -/

/-- The blocks of one channel by call number: `x k` is the block of call `k`, filler for `k ≤ 0`
(41_history_window.md, before R94). -/
abbrev BlockStream := Int → Word

/-- `WinConv`: at convolution time of call `k` word `w` is the block of call `k - w` (41_history_window.md R94). -/
abbrev WinConv (nw : Nat) (row : List Word) (x : BlockStream) (k : Int) : Prop := ∀ w < nw, row.getD w 0 = x (k - w)

/-- `WinIdle`: after call `k` words `1 .. NW-1` are the blocks of calls `k .. k+2-NW`, and word 0 is the block of call `k`
(41_history_window.md R95). -/
abbrev WinIdle (s : State) (c : Nat) (x : BlockStream) (k : Int) : Prop :=
  s.word c 0 = x k ∧ ∀ w, 1 ≤ w → w < s.cfg.nw → s.word c w = x (k + 1 - w)

/-- `InOrder(c)`: the blocks given to channel `c` by these calls are the blocks of calls 1, 2, ... of the stream
(70_reset_and_hazards.md R159 Z1 and Z2, R163). -/
abbrev InOrder (c : Nat) (x : BlockStream) (calls : List (List Word)) : Prop :=
  ∀ k < calls.length, (calls.getD k []).getD c 0 = x (k + 1)

/-- The bit stream `u[t]` (43_decimator.md, before R123): floor division, so `u[0]` is bit 0 of block 1. -/
def streamBit (x : BlockStream) (t : Int) : Bool := blockBit (x (t / 32 + 1)) (t % 32).toNat

/-- `y[m]`, the full-rate filter output of the prototype `g` (43_decimator.md R123). -/
def fullRate (g : List Int) (x : BlockStream) (m : Int) : Int :=
  ∑ i ∈ Finset.range g.length, g.getD i 0 * sgn (streamBit x (m - i))

/-- The silence baseline of a table before scaling (43_decimator.md R128). -/
def silence (n : Nat) (t : List Int) : Int := ∑ a ∈ Finset.range n, (-1) ^ (a + 1) * memRead t a

end Sys2Proof.Machine
end

