-- ==== Sys2Proof/Certificates/Slice0/Obligations.lean ====
section
/-! DEFINITION. The statements for the provers: what the rules of spec/ say a command, a micro-operation or the machine does.
Every statement is about every configuration (`State.cfg`), every operand and every state that meets its hypotheses. -/

open Sys2Proof Sys2Proof.Machine

/-! ## The port, decoding, stepping -/

/-- The command at the head of the port is decoded and executed in the state without it (30_encoding.md R61; the port is
the model's form of it, log 4). -/
def Obligations.StepRunsThePresentedCommand : Prop :=
  ∀ (s : State) (tr : Transfer) (rest : List HostInput), s.port = .command tr :: rest →
    step s = exec (decode tr) { s with port := rest }

/-- The reset input, in any state: every history word `FILLER`, the flags and the cause 0, nothing else
(70_reset_and_hazards.md R155; that the input comes by the port is the model's form, log 4, log 18). -/
def Obligations.ResetInputRestoresTheConstructedState : Prop :=
  ∀ (s : State) (rest : List HostInput), s.port = .reset :: rest →
    ∃ t, step s = .next t ∧
      t = { s with hist := t.hist, bound := false, fault := false, cause := .noFault, port := rest } ∧
      t.Shaped ∧ ∀ c < s.cfg.nch, ∀ w < s.cfg.nw, t.word c w = s.cfg.filler

/-- Nothing presented: the block keeps its state (60_exceptions.md R150; log 5). -/
def Obligations.IdleBlockKeepsItsState : Prop := ∀ s : State, s.port = [] → step s = .next s

/-- A table word placed at the port is executed by the next step, as the command the decoder reads from it. The numbering
of the bits, the 0 in every bit the word does not give, and the port are the model's (log 12, log 20, log 4). -/
def Obligations.PlacedTableWordIsExecutedNext : Prop :=
  ∀ (s : State) (nbits w : Nat), ∃ i, decodeTableWordFor s.cfg.nch nbits w = some i ∧
    step (s.withFetchWord nbits w) = exec i s

/-- The command map (30_encoding.md R62), with any data on the operand lanes, and the four rows of the opcode table. R62
states that the data beside `0b11` is ignored; that the data beside `0b00` and `0b01` is ignored too is the model's reading
(log 8, DEDUCED, unsafe). Where a table word holds the command and the data is the model's numbering (log 12, DESIGN CHOICE),
and that the bits it does not give are 0, so that `0x2` of 8 bits is a `PROCESS` of `NCH` zero words, is the model's choice
(log 20, DESIGN CHOICE): no transfer on the port is padded (60_exceptions.md R139). -/
def Obligations.CommandCodesDecode : Prop :=
  (∀ data : List Word, decode ⟨0b00#2, data⟩ = .nop ∧ decode ⟨0b01#2, data⟩ = .init ∧
      decode ⟨0b10#2, data⟩ = .process data ∧ decode ⟨0b11#2, data⟩ = .rsvd) ∧
    decodeTableWord 8 0x0 = some .nop ∧ decodeTableWord 8 0x1 = some .init ∧
    decodeTableWord 8 0x2 = some (.process (List.replicate Config.reference.nch 0)) ∧ decodeTableWord 8 0x3 = some .rsvd

/-- Every command with an operand of the right length is read back from its bits, with every data word at every value
(30_encoding.md R61, R62, R63; the numbering of the bits is the model's, log 12). -/
def Obligations.TableWordRoundTrip : Prop :=
  ∀ (nch : Nat) (i : Instr), i.wf nch = true →
    decodeTableWordFor nch (tableWordBits i) (encodeTableWord i) = some i

/-- The other direction: a transfer is what its command encodes to, unless data lies beside a command that takes none
(30_encoding.md R62; log 8). -/
def Obligations.OnlyIgnoredDataIsLostByDecoding : Prop :=
  ∀ tr : Transfer, encode (decode tr) = tr ↔ (tr.data = [] ∨ tr.cmd = 0b10#2)

/-! ## The commands -/

/-- `NOP`, code `0b00`, has no effect, in every mode (43_decimator.md R116). -/
def Obligations.NopHasNoEffect : Prop := encode .nop = ⟨0b00#2, []⟩ ∧ ∀ s : State, exec .nop s = .next s

/-- `INIT`, code `0b01`: in mode `UNBOUND` it sets `bound` and nothing else, in mode `READY` it faults, in mode `FAULTED`
it is ignored (43_decimator.md R117, 60_exceptions.md R137). -/
def Obligations.InitBindsTheTablesOnce : Prop :=
  encode .init = ⟨0b01#2, []⟩ ∧ ∀ s : State,
    (s.fault = false → s.bound = false → exec .init s = .next { s with bound := true }) ∧
      (s.fault = false → s.bound = true → exec .init s = .next { s with fault := true, cause := .reinit }) ∧
      (s.fault = true → exec .init s = .next s)

/-- `RSVD`, code `0b11` with any data, faults `ILLEGAL_CMD`, bound or not; in mode `FAULTED` it is ignored
(43_decimator.md R122, 60_exceptions.md R138). -/
def Obligations.RsvdFaultsIllegalCommand : Prop :=
  ∀ data : List Word, decode ⟨0b11#2, data⟩ = .rsvd ∧ ∀ s : State,
    (s.fault = false → exec .rsvd s = .next { s with fault := true, cause := .illegalCmd }) ∧
      (s.fault = true → exec .rsvd s = .next s)

/-- `PROCESS` before `INIT` faults and changes nothing else, whatever its operand (60_exceptions.md R136). -/
def Obligations.ProcessBeforeInitFaults : Prop :=
  ∀ (s : State) (blocks : List Word), s.fault = false → s.bound = false →
    exec (.process blocks) s = .next { s with fault := true, cause := .uninitUse }

/-- A ready `PROCESS` whose operand has not exactly `NCH` words faults, with no other effect: no padding, no truncation
(60_exceptions.md R139, which states it for a model whose operand is a list, as this one's is: log 7). -/
def Obligations.ProcessOfWrongShapeFaults : Prop :=
  ∀ (s : State) (blocks : List Word), Ready s → blocks.length ≠ s.cfg.nch →
    exec (.process blocks) s = .next { s with fault := true, cause := .badShape }

/-- The order of the tests: ignored if faulted, then `ILLEGAL_CMD`, `REINIT`, `UNINIT_USE`, `BAD_SHAPE`, and no fault where
none holds (60_exceptions.md R143). -/
def Obligations.FirstFaultConditionDecides : Prop :=
  ∀ (i : Instr) (s : State),
    (s.fault = true → exec i s = .next s) ∧
      (s.fault = false → ∀ code, firstFault i s = some code →
        exec i s = .next { s with fault := true, cause := code }) ∧
      (s.fault = false → firstFault i s = none → ∀ t, exec i s = .next t → t.fault = false ∧ t.cause = s.cause)

/-- A ready `PROCESS` runs every lane. It delivers one array of two samples for each channel: in the slot of a phase the
convolution of the updated window with the phase's table, times `2^SHIFT`, with no overflow. It advances every history: the
new block in words 0 and 1, every other word one place older, the oldest discarded. Nothing else changes: neither the flags
nor the configuration, and each channel reads and writes its own block and row only (43_decimator.md R119, R118, R121;
42_convolution.md R100; 41_history_window.md R91, R92; that the array is appended to `results` is the model's form, log 6). -/
def Obligations.ReadyProcessRunsEveryLane : Prop :=
  ∀ (s : State) (blocks : List Word), CanProcess blocks s →
    ∃ t r, exec (.process blocks) s = .next t ∧ t = { s with hist := t.hist, results := s.results ++ [r] } ∧ t.Shaped ∧
      (∀ p : Phase, (r.slot p).length = s.cfg.nch ∧ ∀ c < s.cfg.nch,
        (r.at p c).toInt =
          2 ^ s.cfg.shift * ∑ a ∈ Finset.range s.cfg.n,
            sgn (blockBit (if a / 32 = 0 then blocks.getD c 0 else s.word c (a / 32)) (31 - a % 32)) *
              memRead (s.cfg.table p) a) ∧
      ∀ c < s.cfg.nch, t.word c 0 = blocks.getD c 0 ∧ (1 < s.cfg.nw → t.word c 1 = blocks.getD c 0) ∧
        ∀ w, 2 ≤ w → w < s.cfg.nw → t.word c w = s.word c (w - 1)

/-! ## Frames and whole-machine rules -/

/-- Whatever a command does, it touches neither the configuration (10_state.md R27; that `State` carries it is the model's
form, log 1, DESIGN CHOICE) nor what the host presents next (no rule of the spec: the queue `port` is the model's own, log 4,
DESIGN CHOICE). -/
def Obligations.CommandsKeepConfigurationAndPort : Prop :=
  ∀ (i : Instr) (s t : State), exec i s = .next t → t.cfg = s.cfg ∧ t.port = s.port

/-- Only a `PROCESS` in mode `READY` with an operand of the right length writes the history or delivers samples, and it
keeps the flags (10_state.md R22, 60_exceptions.md R144; the list of the samples delivered is the model's form, log 6). -/
def Obligations.OnlyARunningProcessWritesHistory : Prop :=
  ∀ (i : Instr) (s t : State), exec i s = .next t →
    (t.hist = s.hist ∧ t.results = s.results) ∨
      (∃ blocks, i = .process blocks ∧ CanProcess blocks s ∧ t.bound = s.bound ∧ t.fault = s.fault ∧ t.cause = s.cause)

/-- Entering the fault state sets `fault` and a legal code, and nothing else (60_exceptions.md R144, R135). -/
def Obligations.FaultEntryChangesNothingElse : Prop :=
  ∀ (i : Instr) (s t : State), s.fault = false → exec i s = .next t → t.fault = true →
    t = { s with fault := true, cause := t.cause } ∧ 1 ≤ t.cause.code.toNat ∧ t.cause.code.toNat ≤ 4

/-- While `fault = 1` every command is ignored (60_exceptions.md R145). -/
def Obligations.FaultStateIgnoresEveryCommand : Prop :=
  ∀ (i : Instr) (s : State), s.fault = true → exec i s = .next s

/-- A step from the fault state takes the next input away and changes nothing else, unless that input is reset, which is
the only way out (60_exceptions.md R146; the port is the model's form, log 4). -/
def Obligations.OnlyResetLeavesTheFaultState : Prop :=
  ∀ s : State, s.fault = true → ∃ t, step s = .next t ∧
    ((s.port.head? = some .reset ∧ t.fault = false ∧
        t.hist = List.replicate s.cfg.nch (List.replicate s.cfg.nw s.cfg.filler)) ∨
      (s.port.head? ≠ some .reset ∧ t = { s with port := s.port.tail }))

/-- `bound` is set by `INIT` and cleared by reset, and by nothing else (10_state.md R24; that both come by the port is the
model's form, log 4). -/
def Obligations.OnlyInitSetsAndOnlyResetClearsBound : Prop :=
  ∀ s t : State, step s = .next t →
    (s.bound = false → t.bound = true → ∃ tr rest, s.port = .command tr :: rest ∧ decode tr = .init ∧ s.fault = false) ∧
      (s.bound = true → t.bound = false → s.port.head? = some .reset)

/-- No step changes the configuration: the tables, the shift and the filler are the same in every state of a run
(10_state.md R27, 20_memory.md R53; that `State` carries it is the model's form, log 1). -/
def Obligations.StepKeepsTheConfiguration : Prop := ∀ s t : State, step s = .next t → t.cfg = s.cfg

/-- Samples come from a `PROCESS` in mode `READY` and from nothing else, one array for each (70_reset_and_hazards.md R161,
43_decimator.md R125; port and results are the model's form, log 4, log 6). -/
def Obligations.SamplesComeOnlyFromAReadyProcess : Prop :=
  ∀ s t : State, step s = .next t →
    t.results = s.results ∨
      ∃ blocks rest r, s.port = .command (encode (.process blocks)) :: rest ∧ CanProcess blocks s ∧
        t.results = s.results ++ [r] ∧ ∀ p : Phase, (r.slot p).length = s.cfg.nch

/-- Nothing but `H`, the flags and the configuration decides what a command does (10_state.md R20, 43_decimator.md R126):
in a state that agrees on them the command does the same, whatever was delivered before and is presented later
(log 4, log 6). -/
def Obligations.NothingElseSurvivesBetweenCommands : Prop :=
  ∀ (i : Instr) (s s' t : State),
    s'.cfg = s.cfg → s'.hist = s.hist → s'.bound = s.bound → s'.fault = s.fault → s'.cause = s.cause →
      exec i s = .next t → ∃ new, t.results = s.results ++ new ∧
        exec i s' = .next { t with port := s'.port, results := s'.results ++ new }

/-- `STATUS` is `cause[2:0], fault, bound` (10_state.md R26, 30_encoding.md R67), and its cause field holds the code of the
table of causes: none 0, `UNINIT_USE` 1, `REINIT` 2, `ILLEGAL_CMD` 3, `BAD_SHAPE` 4, and never 5 to 7 (60_exceptions.md
R135). -/
def Obligations.StatusShowsTheFlags : Prop :=
  (∀ s : State, s.status.getLsbD 0 = s.bound ∧ s.status.getLsbD 1 = s.fault ∧
    s.status.extractLsb' 2 3 = s.cause.code ∧ s.cause.code.toNat ≤ 4) ∧
    Cause.code .noFault = 0#3 ∧ Cause.code .uninitUse = 1#3 ∧ Cause.code .reinit = 2#3 ∧ Cause.code .illegalCmd = 3#3 ∧
      Cause.code .badShape = 4#3

/-- Each fault by its command, its condition and the `STATUS` it leaves, code and flags in numbers; no fault by any other
command or condition, and nothing recorded but the flag and the code; where the flags agree, as every step keeps them, the code is 0 exactly while `fault = 0`
(60_exceptions.md R135; `BAD_SHAPE` since the operand is a list, log 7). -/
def Obligations.EachFaultRecordsItsCode : Prop :=
  (∀ s : State, s.fault = false →
      (∀ blocks, s.bound = false → ∃ t, exec (.process blocks) s = .next t ∧ t.status = 0b00110#5) ∧
      (s.bound = true → ∃ t, exec .init s = .next t ∧ t.status = 0b01011#5) ∧
      (∃ t, exec .rsvd s = .next t ∧ t.status = if s.bound then 0b01111#5 else 0b01110#5) ∧
      ∀ blocks, s.bound = true → blocks.length ≠ s.cfg.nch →
        ∃ t, exec (.process blocks) s = .next t ∧ t.status = 0b10011#5) ∧
    (∀ (i : Instr) (s t : State), s.fault = false → exec i s = .next t → t.fault = true →
      t = { s with fault := true, cause := t.cause } ∧
        ((t.status.extractLsb' 2 3 = 1#3 ∧ s.bound = false ∧ ∃ blocks, i = .process blocks) ∨
          (t.status.extractLsb' 2 3 = 2#3 ∧ s.bound = true ∧ i = .init) ∨
          (t.status.extractLsb' 2 3 = 3#3 ∧ i = .rsvd) ∨
          (t.status.extractLsb' 2 3 = 4#3 ∧ s.bound = true ∧ ∃ blocks, i = .process blocks ∧ blocks.length ≠ s.cfg.nch))) ∧
    ∀ s : State, FlagsAgree s → (s.status.extractLsb' 2 3 = 0#3 ↔ s.fault = false)

/-- The table of the lifecycle modes (60_exceptions.md R148). -/
def Obligations.LifecycleModes : Prop :=
  (∀ s : State, s.mode = .unbound → exec .nop s = .next s ∧ (∃ t, exec .init s = .next t ∧ t.mode = .ready) ∧
      (∀ blocks, ∃ t, exec (.process blocks) s = .next t ∧ t.mode = .faulted ∧ t.cause = .uninitUse) ∧
      ∃ t, exec .rsvd s = .next t ∧ t.mode = .faulted ∧ t.cause = .illegalCmd) ∧
    (∀ s : State, s.mode = .ready → exec .nop s = .next s ∧
      (∃ t, exec .init s = .next t ∧ t.mode = .faulted ∧ t.cause = .reinit) ∧
      (∀ blocks, blocks.length = s.cfg.nch → s.Shaped → ∃ t, exec (.process blocks) s = .next t ∧ t.mode = .ready) ∧
      ∃ t, exec .rsvd s = .next t ∧ t.mode = .faulted ∧ t.cause = .illegalCmd) ∧
    (∀ s : State, s.mode = .faulted → ∀ i, exec i s = .next s) ∧
    ∀ s : State, (assertReset s).mode = .unbound

/-! ## Configuration, reset and the invariant -/

/-- A configuration is refused, under the name of the condition that fails, exactly when it is not well formed
(00_scope.md R8; that the refusal stands where the machine is built is the model's form, log 3). -/
def Obligations.OnlyIllFormedConfigurationsAreRefused : Prop := ∀ p : Params, p.refusal = none ↔ CfgOK p

/-- After reset every history register exists and holds `0x55555555` (10_state.md R32). -/
def Obligations.ResetStateHistoryIsFiller : Prop :=
  State.reset.Shaped ∧ State.reset.cfg.filler = 0x55555555#32 ∧
    ∀ c < State.reset.cfg.nch, ∀ w < State.reset.cfg.nw, State.reset.word c w = 0x55555555#32

/-- The flags after reset: `STATUS = 0` and the mode is `UNBOUND` (10_state.md R33). -/
def Obligations.ResetStateFlagsAreZero : Prop :=
  State.reset.bound = false ∧ State.reset.fault = false ∧ State.reset.cause.code = 0 ∧ State.reset.status = 0 ∧
    State.reset.mode = .unbound

/-- The invariant holds right after reset. -/
def Obligations.ResetStateHasTheInvariant : Prop := Inv State.reset

/-- The invariant is kept by every step, from every state that has it: the history keeps its shape, the flags agree with
the code, an unbound block holds filler, word 0 repeats word 1, and every delivered sample is within the bound of its table
with its low `SHIFT` bits zero (10_state.md R21, R24, R32; 60_exceptions.md R135; 41_history_window.md R95;
30_encoding.md R65; 42_convolution.md R103; results are the model's form, log 6). -/
def Obligations.EveryStepKeepsTheInvariant : Prop := ∀ s t : State, Inv s → step s = .next t → Inv t

/-- Every step of a machine that has the invariant goes on: no input stops it, whatever the host presents
(43_decimator.md R130: every command terminates; the idle step is log 5, the port log 4, and the shape that the invariant
asks for log 10). -/
def Obligations.EveryInputIsAnswered : Prop := ∀ s : State, Inv s → ∃ t, step s = .next t

/-- Bring-up, from any state whatever: reset, `INIT`, and the first `PROCESS` runs (70_reset_and_hazards.md R157; the
port is the model's form, log 4). -/
def Obligations.BringUpReachesReady : Prop :=
  ∀ (s : State) (blocks : List Word) (rest : List HostInput), blocks.length = s.cfg.nch →
    s.port = .reset :: .command (encode .init) :: .command (encode (.process blocks)) :: rest →
      ∃ t r, core.run 3 s = .next t ∧ t.results = s.results ++ [r] ∧ Ready t ∧ t.Shaped ∧ t.port = rest

/-! ## The convolution -/

/-- Accumulate and correct (42_convolution.md R105). -/
def Obligations.AccumulateAndCorrect : Prop :=
  ∀ (n : Nat) (row : List Word) (t : List Int),
    conv n row t = 2 * (∑ a ∈ (Finset.range n).filter (fun a => win row a = true), memRead t a)
      - ∑ a ∈ Finset.range n, memRead t a

/-- No partial sum over any set of ages, in any order, leaves the accumulator's range, scaled or not
(42_convolution.md R103). -/
def Obligations.PartialSumsFitTheAccumulator : Prop :=
  ∀ (cfg : Cfg) (p : Phase) (row : List Word) (ages : Finset Nat), ages ⊆ Finset.range cfg.n →
    |∑ a ∈ ages, sgn (win row a) * memRead (cfg.table p) a| ≤ tableMass (cfg.table p) ∧
      |∑ a ∈ ages, sgn (win row a) * memRead (cfg.table p) a| * 2 ^ cfg.shift ≤ 2 ^ 31 - 1

/-- Complement, parity, one flipped bit, and linearity in the table (42_convolution.md R106 (a) to (d)). -/
def Obligations.ConvolutionLaws : Prop :=
  (∀ (n : Nat) (row : List Word) (t : List Int), n ≤ 32 * row.length →
      conv n (row.map fun x => ~~~x) t = -conv n row t) ∧
    (∀ (n : Nat) (row : List Word) (t : List Int),
      (2 : Int) ∣ conv n row t - ∑ a ∈ Finset.range n, memRead t a) ∧
    (∀ (n : Nat) (row row' : List Word) (t : List Int) (a : Nat), a < n →
      (∀ e < n, e ≠ a → win row' e = win row e) → win row a = false → win row' a = true →
        conv n row' t = conv n row t + 2 * memRead t a ∧ conv n row t = conv n row' t - 2 * memRead t a) ∧
    (∀ (n : Nat) (row : List Word) (t u : List Int), t.length = u.length →
      conv n row (List.zipWith (· + ·) t u) = conv n row t + conv n row u ∧
        conv n row (t.map fun v => -v) = -conv n row t)

/-- When the extremes are reached (42_convolution.md R107). -/
def Obligations.ConvolutionExtremes : Prop :=
  ∀ (t : List Int) (row : List Word),
    (conv t.length row t = tableMass t ↔
        ∀ a < t.length, memRead t a ≠ 0 → (win row a = true ↔ 0 < memRead t a)) ∧
      (conv t.length row t = -(tableMass t : Int) ↔
        ∀ a < t.length, memRead t a ≠ 0 → (win row a = true ↔ memRead t a < 0)) ∧
      ((∀ a < t.length, 0 ≤ memRead t a) →
        ((∀ a < t.length, win row a = true) → conv t.length row t = tableMass t) ∧
        ((∀ a < t.length, win row a = false) → conv t.length row t = -(tableMass t : Int)))

/-- The scaled sample is exactly `2^SHIFT` times the accumulator: no bit lost, the low `SHIFT` bits zero
(43_decimator.md R121, 30_encoding.md R65). -/
def Obligations.ScaleCorrectionIsExact : Prop :=
  ∀ (cfg : Cfg) (p : Phase) (row : List Word),
    (scale cfg.shift (conv cfg.n row (cfg.table p))).toInt = conv cfg.n row (cfg.table p) * 2 ^ cfg.shift ∧
      ∀ b < cfg.shift, (scale cfg.shift (conv cfg.n row (cfg.table p))).getLsbD b = false

/-- With a phase pair the two convolutions are the prototype laid over two stretches of the window 16 bits apart
(42_convolution.md R110, 40_coefficient_table.md R82, R83; that `PadZero` stands beside `PhasePair` is log 19). -/
def Obligations.PhasePairConvolutions : Prop :=
  ∀ (cfg : Cfg) (g : List Int) (row : List Word), PadZero cfg.toParams → PhasePair cfg.toParams g →
    conv cfg.n row cfg.tb = (∑ i ∈ Finset.range cfg.nact, sgn (win row i) * memRead g i) ∧
      conv cfg.n row cfg.ta = ∑ i ∈ Finset.range cfg.nact, sgn (win row (i + 16)) * memRead g i

/-- `ADVANCE`: the shift register is the loop of its rule, and it moves every word one place older, keeps word 0 and
discards the oldest (41_history_window.md R92). -/
def Obligations.AdvanceMovesEveryWordOnePlace : Prop :=
  ∀ row : List Word, advanceLoop (row.length - 1) row = advance row ∧ (advance row).length = row.length ∧
    (advance row).getD 0 0 = row.getD 0 0 ∧ ∀ w, 1 ≤ w → w < row.length → (advance row).getD w 0 = row.getD (w - 1) 0

/-! ## Lanes and channels -/

/-- Every schedule that gives each lane its six micro-operations leaves what `PROCESS` leaves (20_memory.md R51,
60_exceptions.md R149). -/
def Obligations.EveryLaneScheduleGivesTheSameResult : Prop :=
  ∀ (cfg : Cfg) (hist : List (List Word)) (blocks : List Word) (schedule : List Nat), blocks.length = hist.length →
    (∀ c < hist.length, schedule.count c = 6) →
      (runSchedule cfg schedule (List.zipWith LaneRun.start hist blocks)).map LaneRun.result = runLanes cfg hist blocks

/-- The samples and the next history of a channel depend on its own block and history only; the flags are shared, so a
fault stops every channel (43_decimator.md R127; samples are read off `results`, log 6). -/
def Obligations.ChannelsAreIndependent : Prop :=
  (∀ (s : State) (blocks : List Word), s.fault = true → exec (.process blocks) s = .next s) ∧
  ∀ (s s' t t' : State) (blocks blocks' : List Word) (r r' : Samples) (c : Nat), s'.cfg = s.cfg →
    CanProcess blocks s → CanProcess blocks' s' →
      s'.hist.getD c [] = s.hist.getD c [] → blocks'.getD c 0 = blocks.getD c 0 →
        ProcessesTo blocks s t r → ProcessesTo blocks' s' t' r' →
          t'.hist.getD c [] = t.hist.getD c [] ∧ ∀ p : Phase, r'.at p c = r.at p c

/-- Word 0 of a channel is never read between calls: a `PROCESS` does the same whatever it holds (10_state.md R31). -/
def Obligations.IdleWordZeroIsDead : Prop :=
  ∀ (s : State) (hist' : List (List Word)) (blocks : List Word), CanProcess blocks s →
    ({ s with hist := hist' } : State).Shaped →
      (∀ c < s.cfg.nch, (hist'.getD c []).tail = (s.hist.getD c []).tail) →
        exec (.process blocks) { s with hist := hist' } = exec (.process blocks) s

/-- Slot 0 is blind to the 16 newest bits of the window and slot 1 to the 16 oldest (43_decimator.md R120,
40_coefficient_table.md R82; samples are read off `results`, log 6). -/
def Obligations.EachSlotIsBlindToItsPaddedBatch : Prop :=
  ∀ (s s' t t' : State) (blocks blocks' : List Word) (r r' : Samples) (c : Nat), s'.cfg = s.cfg → PadZero s.cfg.toParams →
    CanProcess blocks s → CanProcess blocks' s' → c < s.cfg.nch →
      ProcessesTo blocks s t r → ProcessesTo blocks' s' t' r' →
        ((∀ a, 16 ≤ a → a < s.cfg.n → win (windowOf s' blocks' c) a = win (windowOf s blocks c) a) →
            r'.at .a c = r.at .a c) ∧
          ((∀ a, a + 16 < s.cfg.n → win (windowOf s' blocks' c) a = win (windowOf s blocks c) a) →
            r'.at .b c = r.at .b c)

/-! ## The stream of a channel -/

/-- Where each bit of a block stands in the windows it is in: contiguous, none skipped, none doubled
(41_history_window.md R96). -/
def Obligations.WindowIsASliceOfTheStream : Prop :=
  ∀ (nw : Nat) (row : List Word) (x : BlockStream) (k : Int), WinConv nw row x k →
    (∀ d < nw, ∀ b < 32, win row (32 * d + 31 - b) = blockBit (x (k - d)) b) ∧
      ∀ a < 32 * nw, win row a = streamBit x (32 * k - 1 - a)

/-- The window at convolution time is the `NW` most recent blocks, and what is kept between calls is what the next call
needs, from reset on (41_history_window.md R94, R95). -/
def Obligations.WindowHoldsTheMostRecentBlocks : Prop :=
  (∀ (s : State) (c : Nat) (x : BlockStream), Fresh s → c < s.cfg.nch → (∀ j ≤ 0, x j = s.cfg.filler) →
      WinIdle s c x 0) ∧
    ∀ (s : State) (blocks : List Word) (c : Nat) (x : BlockStream) (k : Int), CanProcess blocks s → c < s.cfg.nch →
      WinIdle s c x (k - 1) → blocks.getD c 0 = x k →
        WinConv s.cfg.nw (windowOf s blocks c) x k ∧ ∃ t, exec (.process blocks) s = .next t ∧ WinIdle t c x k

/-- The samples of call `k` are the two tables laid over the stream up to bit `32 k - 1` (43_decimator.md R123; samples are
read off `results`, log 6). -/
def Obligations.SamplesFollowTheStream : Prop :=
  ∀ (s : State) (blocks : List Word) (c : Nat) (x : BlockStream) (k : Int), CanProcess blocks s → c < s.cfg.nch →
    WinIdle s c x (k - 1) → blocks.getD c 0 = x k →
      ∃ t r, ProcessesTo blocks s t r ∧ WinIdle t c x k ∧ ∀ p : Phase,
        (r.at p c).toInt = 2 ^ s.cfg.shift * ∑ a ∈ Finset.range s.cfg.n,
          memRead (s.cfg.table p) a * sgn (streamBit x (32 * k - 1 - a))

/-- A run of calls on a phase pair delivers two samples a call, and the decimated stream is the full-rate filter output
kept every 16th bit (43_decimator.md R123, R125; port and results are the model's form, log 4, log 6; `PadZero` beside
`PhasePair`, log 19). -/
def Obligations.DecimatedStreamIsEverySixteenthFilterOutput : Prop :=
  ∀ (s : State) (g : List Int) (calls : List (List Word)) (rest : List HostInput) (c : Nat) (x : BlockStream),
    PadZero s.cfg.toParams → PhasePair s.cfg.toParams g → Ready s → s.Shaped → c < s.cfg.nch → WinIdle s c x 0 →
      (∀ blocks ∈ calls, blocks.length = s.cfg.nch) →
      InOrder c x calls →
      s.port = calls.map (fun blocks => .command (encode (.process blocks))) ++ rest →
        ∃ t new, core.run calls.length s = .next t ∧ t.results = s.results ++ new ∧ t.port = rest ∧ Ready t ∧
          WinIdle t c x calls.length ∧ (decimated c new).length = 2 * calls.length ∧
            ∀ j < 2 * calls.length,
              ((decimated c new).getD j 0).toInt = 2 ^ s.cfg.shift * fullRate g x (16 * j + 15)

/-- Fed with the filler pattern a full channel gives its silence baseline and stays as it is (43_decimator.md R128;
samples are read off `results`, log 6; `PadZero` beside `PhasePair`, log 19). -/
def Obligations.SilenceGivesTheBaseline : Prop :=
  (∀ (s : State) (blocks : List Word) (c : Nat), CanProcess blocks s → c < s.cfg.nch →
      blocks.getD c 0 = 0x55555555#32 → (∀ w, 1 ≤ w → w < s.cfg.nw → s.word c w = 0x55555555#32) →
        ∃ t r, ProcessesTo blocks s t r ∧ (∀ w < s.cfg.nw, t.word c w = 0x55555555#32) ∧ ∀ p : Phase,
          (r.at p c).toInt = 2 ^ s.cfg.shift * silence s.cfg.n (s.cfg.table p)) ∧
    ∀ (cfg : Cfg) (g : List Int), PadZero cfg.toParams → PhasePair cfg.toParams g →
      silence cfg.n cfg.ta = silence cfg.n cfg.tb

/-- One flipped bit in a stream of filler traces the table, one age a call, on the silence baseline
(43_decimator.md R129; samples are read off `results`, log 6). -/
def Obligations.ImpulseTracesTheTable : Prop :=
  ∀ (s : State) (blocks : List Word) (c : Nat) (x : BlockStream) (b k : Nat), CanProcess blocks s → c < s.cfg.nch →
    b < 32 → (∀ j, x j = if j = 1 then 0x55555555#32 ^^^ (1#32 <<< b) else 0x55555555#32) → 1 ≤ k →
      WinIdle s c x (k - 1) → blocks.getD c 0 = x k →
        ∃ t r, ProcessesTo blocks s t r ∧ WinIdle t c x k ∧ ∀ p : Phase,
          (r.at p c).toInt = 2 ^ s.cfg.shift * silence s.cfg.n (s.cfg.table p) +
            (if k ≤ s.cfg.nw then
              (if b % 2 = 1 then 1 else -1) * 2 ^ (s.cfg.shift + 1) * memRead (s.cfg.table p) (32 * (k - 1) + 31 - b)
            else 0)

/-- Once every word of a window equals the block, the same `PROCESS` again leaves the words that carry information as they
are and repeats its samples (20_memory.md R47; samples are read off `results`, log 6). -/
def Obligations.ConstantStreamRepeats : Prop :=
  ∀ (s : State) (blocks : List Word), CanProcess blocks s →
    (∀ c < s.cfg.nch, ∀ w, 1 ≤ w → w < s.cfg.nw → s.word c w = blocks.getD c 0) →
      ∃ t r t', ProcessesTo blocks s t r ∧ ProcessesTo blocks t t' r ∧ t'.hist = t.hist ∧
        ∀ c < s.cfg.nch, ∀ w, 1 ≤ w → w < s.cfg.nw → t.word c w = s.word c w
end

