-- ==== Sys2Proof/Laws/Config.lean ====
section
/-! SUPPORT. What a well-formed configuration gives, one fact a lemma (00_scope.md R8, 40_coefficient_table.md R84). -/

namespace Sys2Proof

/-- One link of `Params.refusal`: nothing is refused exactly when the condition holds and the rest refuses nothing. -/
theorem guard_none {P : Prop} [Decidable P] {α : Type} {x : α} {rest : Option α} :
    (if ¬ P then some x else rest) = none ↔ P ∧ rest = none := by
  by_cases h : P <;> simp [h]

namespace Cfg

theorem one_le_nch (cfg : Cfg) : 1 ≤ cfg.nch := cfg.ok.1

theorem one_le_nw (cfg : Cfg) : 1 ≤ cfg.nw := cfg.ok.2.1

theorem n_eq (cfg : Cfg) : cfg.n = 32 * cfg.nw := cfg.ok.2.2.1

theorem pad_eq (cfg : Cfg) : cfg.pad = 16 := cfg.ok.2.2.2.1

theorem nact_eq (cfg : Cfg) : cfg.nact = cfg.n - cfg.pad := cfg.ok.2.2.2.2.2.1

theorem aw_eq (cfg : Cfg) : cfg.aw = 32 := cfg.ok.2.2.2.2.2.2.1

theorem shift_lt (cfg : Cfg) : cfg.shift < 32 := cfg.aw_eq ▸ cfg.ok.2.2.2.2.2.2.2.2.1

theorem table_length (cfg : Cfg) (p : Phase) : (cfg.table p).length = cfg.n := by
  cases p
  · exact cfg.ok.2.2.2.2.2.2.2.2.2.1.1
  · exact cfg.ok.2.2.2.2.2.2.2.2.2.1.2

/-- `CoeffOK` in the width it is about (40_coefficient_table.md R84). -/
theorem mass_le (cfg : Cfg) (p : Phase) : tableMass (cfg.table p) * 2 ^ cfg.shift ≤ 2 ^ 31 - 1 := by
  have h := cfg.ok.2.2.2.2.2.2.2.2.2.2.2
  rw [CoeffOK, cfg.aw_eq] at h
  cases p
  · exact h.1
  · exact h.2

end Cfg

end Sys2Proof
end

