-- ==== Sys2Proof/Laws/State.lean ====
section
/-! SUPPORT. One lemma for each field of State under each named update, so that no proof unfolds a record update. -/

namespace Sys2Proof.Machine

variable (s : State) (code : Cause) (blocks : List Word) (t : Transfer)

@[simp] theorem raiseFault_cfg : (raiseFault code s).cfg = s.cfg := rfl
@[simp] theorem raiseFault_hist : (raiseFault code s).hist = s.hist := rfl
@[simp] theorem raiseFault_bound : (raiseFault code s).bound = s.bound := rfl
@[simp] theorem raiseFault_fault : (raiseFault code s).fault = true := rfl
@[simp] theorem raiseFault_cause : (raiseFault code s).cause = code := rfl
@[simp] theorem raiseFault_port : (raiseFault code s).port = s.port := rfl
@[simp] theorem raiseFault_results : (raiseFault code s).results = s.results := rfl

@[simp] theorem assertReset_cfg : (assertReset s).cfg = s.cfg := rfl
@[simp] theorem assertReset_hist : (assertReset s).hist = fillerHistory s.cfg := rfl
@[simp] theorem assertReset_bound : (assertReset s).bound = false := rfl
@[simp] theorem assertReset_fault : (assertReset s).fault = false := rfl
@[simp] theorem assertReset_cause : (assertReset s).cause = .noFault := rfl
@[simp] theorem assertReset_port : (assertReset s).port = s.port := rfl
@[simp] theorem assertReset_results : (assertReset s).results = s.results := rfl

@[simp] theorem processLanes_cfg : (processLanes blocks s).cfg = s.cfg := rfl
@[simp] theorem processLanes_hist :
    (processLanes blocks s).hist = (runLanes s.cfg s.hist blocks).map LaneResult.row := rfl
@[simp] theorem processLanes_bound : (processLanes blocks s).bound = s.bound := rfl
@[simp] theorem processLanes_fault : (processLanes blocks s).fault = s.fault := rfl
@[simp] theorem processLanes_cause : (processLanes blocks s).cause = s.cause := rfl
@[simp] theorem processLanes_port : (processLanes blocks s).port = s.port := rfl
@[simp] theorem processLanes_results :
    (processLanes blocks s).results = s.results ++
      [{ out0 := (runLanes s.cfg s.hist blocks).map LaneResult.sample0
         out1 := (runLanes s.cfg s.hist blocks).map LaneResult.sample1 }] := rfl

@[simp] theorem present_cfg : (present t s).cfg = s.cfg := rfl
@[simp] theorem present_hist : (present t s).hist = s.hist := rfl
@[simp] theorem present_bound : (present t s).bound = s.bound := rfl
@[simp] theorem present_fault : (present t s).fault = s.fault := rfl
@[simp] theorem present_cause : (present t s).cause = s.cause := rfl
@[simp] theorem present_port : (present t s).port = .command t :: s.port := rfl
@[simp] theorem present_results : (present t s).results = s.results := rfl

@[simp] theorem idle_eq : idle s = s := rfl

end Sys2Proof.Machine
end

