-- ==== Sys2Proof/Laws/Lanes.lean ====
section
/-! SUPPORT. The micro-operations said once: words of a history row under `INGEST` and `ADVANCE`, the convolution as a sum,
and the lanes channel by channel (41_history_window.md R91, R92; 42_convolution.md R100; 43_decimator.md R119). -/

namespace Sys2Proof.Machine

/-! ### History rows -/

@[simp] theorem ingest_length (row : List Word) (x : Word) : (ingest row x).length = row.length := by simp [ingest]

theorem ingest_getD_zero {row : List Word} (h : 1 ≤ row.length) (x : Word) : (ingest row x).getD 0 0 = x := by
  cases row with
  | nil => simp at h
  | cons _ _ => simp [ingest]

theorem ingest_getD_succ (row : List Word) (x : Word) (w : Nat) : (ingest row x).getD (w + 1) 0 = row.getD (w + 1) 0 := by
  cases row <;> simp [ingest]

@[simp] theorem advance_length (row : List Word) : (advance row).length = row.length := by
  cases row <;> simp [advance]

theorem advance_getD_zero (row : List Word) : (advance row).getD 0 0 = row.getD 0 0 := by
  cases row <;> simp [advance]

theorem advance_getD_succ {row : List Word} {w : Nat} (h : w + 1 < row.length) :
    (advance row).getD (w + 1) 0 = row.getD w 0 := by
  cases row with
  | nil => simp at h
  | cons newest older =>
    have hw : w < older.length := by simpa using h
    simp only [advance, List.getD_cons_succ]
    rw [List.getD_eq_getElem _ _ (by simpa using hw), List.getElem_dropLast, List.getD_eq_getElem _ _ (by simp; omega)]

/-! ### Bits and sums -/

@[simp] theorem sgn_true : sgn true = 1 := rfl

@[simp] theorem sgn_false : sgn false = -1 := rfl

@[simp] theorem sgn_not (b : Bool) : sgn (!b) = -sgn b := by cases b <;> rfl

theorem abs_sgn_mul (b : Bool) (v : Int) : |sgn b * v| = |v| := by cases b <;> simp [sgn]

/-- The convolution is the sum of 42_convolution.md R100. -/
theorem conv_eq_sum (n : Nat) (row : List Word) (t : List Int) :
    conv n row t = ∑ a ∈ Finset.range n, sgn (win row a) * memRead t a := by
  unfold conv
  induction n with
  | zero => simp
  | succ n ih => rw [List.range_succ, List.foldl_append, ih, Finset.sum_range_succ]; rfl

theorem tableMass_eq_sum (t : List Int) : (tableMass t : Int) = ∑ a ∈ Finset.range t.length, |memRead t a| := by
  induction t with
  | nil => simp [tableMass]
  | cons v t ih =>
    rw [List.length_cons, Finset.sum_range_succ']
    simp only [tableMass, List.map_cons, List.sum_cons, Nat.cast_add, memRead, List.getD_cons_succ, List.getD_cons_zero,
      Int.natCast_natAbs] at ih ⊢
    omega

/-! ### Lanes -/

theorem runLanes_length {cfg : Cfg} {hist : List (List Word)} {blocks : List Word} (h : blocks.length = hist.length) :
    (runLanes cfg hist blocks).length = hist.length := by simp [runLanes, h]

/-- Lane `c` works on row `c` and block `c` (43_decimator.md R119). -/
theorem runLanes_getElem {cfg : Cfg} {hist : List (List Word)} {blocks : List Word} {c : Nat} (hc : c < hist.length)
    (h : blocks.length = hist.length) :
    (runLanes cfg hist blocks)[c]'(by rw [runLanes_length h]; exact hc) =
      lane cfg (hist.getD c []) (blocks.getD c 0) := by
  rw [List.getD_eq_getElem _ _ hc, List.getD_eq_getElem _ _ (h ▸ hc)]
  simp [runLanes]

theorem lane_row (cfg : Cfg) (row : List Word) (x : Word) : (lane cfg row x).row = advance (ingest row x) := rfl

theorem mem_runLanes {cfg : Cfg} {hist : List (List Word)} {blocks : List Word} {l : LaneResult}
    (h : l ∈ runLanes cfg hist blocks) : ∃ row ∈ hist, ∃ x ∈ blocks, l = lane cfg row x := by
  induction hist generalizing blocks with
  | nil => simp [runLanes] at h
  | cons row hist ih =>
    cases blocks with
    | nil => simp [runLanes] at h
    | cons x blocks =>
      rcases List.mem_cons.mp h with rfl | h
      · exact ⟨row, by simp, x, by simp, rfl⟩
      · obtain ⟨r, hr, y, hy, rfl⟩ := ih h
        exact ⟨r, by simp [hr], y, by simp [hy], rfl⟩

/-- The slot of a phase, lane by lane. -/
theorem processLanes_slot (cfg : Cfg) (hist : List (List Word)) (blocks : List Word) (p : Phase) :
    (Samples.mk ((runLanes cfg hist blocks).map LaneResult.sample0) ((runLanes cfg hist blocks).map LaneResult.sample1)).slot p
      = (runLanes cfg hist blocks).map fun l => match p with | .a => l.sample0 | .b => l.sample1 := by
  cases p <;> rfl

theorem lane_sample (cfg : Cfg) (row : List Word) (x : Word) (p : Phase) :
    (match p with | .a => (lane cfg row x).sample0 | .b => (lane cfg row x).sample1)
      = scale cfg.shift (conv cfg.n (ingest row x) (cfg.table p)) := by
  cases p <;> rfl

/-! ### The shape of the history -/

/-- Filling the history gives it its shape (10_state.md R21, R32). -/
theorem fillerHistory_shaped (s : State) (h : s.hist = fillerHistory s.cfg) : s.Shaped := by
  rw [State.Shaped, h]
  simp [fillerHistory, List.mem_replicate]

theorem assertReset_shaped (s : State) : (assertReset s).Shaped := fillerHistory_shaped _ rfl

/-- Running every lane keeps the shape. -/
theorem processLanes_shaped {s : State} {blocks : List Word} (hs : s.Shaped) (hb : blocks.length = s.cfg.nch) :
    (processLanes blocks s).Shaped := by
  have hl := runLanes_length (cfg := s.cfg) (hist := s.hist) (blocks := blocks) (by rw [hb, hs.1])
  refine ⟨by simp [hl, hs.1], fun row hrow => ?_⟩
  simp only [processLanes_hist, List.mem_map] at hrow
  obtain ⟨l, hl', rfl⟩ := hrow
  obtain ⟨r, hr, x, -, rfl⟩ := mem_runLanes hl'
  simp [lane_row, hs.2 r hr]

end Sys2Proof.Machine
end

