-- ==== Sys2Proof/Laws/Exec.lean ====
section
/-! SUPPORT. What each command and each step can do, said once: proofs cite these and do not unfold `exec` or `step`. -/

namespace Sys2Proof.Machine

/-- A faulted block ignores the command (43_decimator.md R115). -/
theorem unlessFaulted_faulted {s : State} (h : s.fault = true) (run : State → Host.Outcome State Fault Refusal) :
    unlessFaulted s run = .next s := by simp [unlessFaulted, h]

theorem unlessFaulted_running {s : State} (h : s.fault = false) (run : State → Host.Outcome State Fault Refusal) :
    unlessFaulted s run = run s := by simp [unlessFaulted, h]

/-- If `NOP` answers a next state, it is the same state. -/
theorem execNop_next {s t : State} (h : execNop s = .next t) : t = s := by
  unfold execNop unlessFaulted at h
  split at h <;> cases h <;> rfl

/-- If `INIT` answers a next state: ignored, `REINIT`, or the tables bound. -/
theorem execInit_next {s t : State} (h : execInit s = .next t) :
    (s.fault = true ∧ t = s) ∨ (s.fault = false ∧ s.bound = true ∧ t = raiseFault .reinit s) ∨
      (s.fault = false ∧ s.bound = false ∧ t = { s with bound := true }) := by
  unfold execInit unlessFaulted at h
  split at h
  · cases h; exact .inl ⟨‹_›, rfl⟩
  · dsimp only at h
    split at h <;> cases h <;> simp_all

/-- If `RSVD` answers a next state: ignored or `ILLEGAL_CMD`. -/
theorem execRsvd_next {s t : State} (h : execRsvd s = .next t) :
    (s.fault = true ∧ t = s) ∨ (s.fault = false ∧ t = raiseFault .illegalCmd s) := by
  unfold execRsvd unlessFaulted at h
  split at h <;> cases h <;> simp_all

/-- If `PROCESS` answers a next state: ignored, `UNINIT_USE`, `BAD_SHAPE`, or every lane run. -/
theorem execProcess_next {blocks : List Word} {s t : State} (h : execProcess blocks s = .next t) :
    (s.fault = true ∧ t = s) ∨ (s.fault = false ∧ s.bound = false ∧ t = raiseFault .uninitUse s) ∨
      (s.fault = false ∧ s.bound = true ∧ blocks.length ≠ s.cfg.nch ∧ t = raiseFault .badShape s) ∨
      (s.fault = false ∧ s.bound = true ∧ blocks.length = s.cfg.nch ∧ s.Shaped ∧ t = processLanes blocks s) := by
  unfold execProcess unlessFaulted at h
  split at h
  · cases h; exact .inl ⟨‹_›, rfl⟩
  · dsimp only at h
    split at h
    · cases h; simp_all
    · split at h
      · cases h; simp_all
      · split at h
        · rename_i hf hb hl hs
          cases h
          exact .inr (.inr (.inr ⟨by simpa using hf, by simpa using hb, by simpa using hl, hs, rfl⟩))
        · cases h

/-- A ready `PROCESS` of the right shape runs every lane. -/
theorem execProcess_runs {blocks : List Word} {s : State} (hf : s.fault = false) (hb : s.bound = true)
    (hl : blocks.length = s.cfg.nch) (hs : s.Shaped) : execProcess blocks s = .next (processLanes blocks s) := by
  rw [execProcess, unlessFaulted_running hf, if_neg (by simp [hb]), if_neg (by simp [hl]), if_pos hs]

/-- What a command can do, all commands at once: nothing, a fault entry in a block that had none, binding the tables, or
running every lane. -/
theorem exec_next {i : Instr} {s t : State} (h : exec i s = .next t) :
    t = s ∨ (s.fault = false ∧ ∃ code, t = raiseFault code s ∧
        ((code = .uninitUse ∧ s.bound = false) ∨ code = .illegalCmd ∨ ((code = .reinit ∨ code = .badShape) ∧ s.bound = true))) ∨
      (s.fault = false ∧ i = .init ∧ s.bound = false ∧ t = { s with bound := true }) ∨
      (∃ blocks, s.fault = false ∧ i = .process blocks ∧ s.bound = true ∧ blocks.length = s.cfg.nch ∧ s.Shaped ∧
        t = processLanes blocks s) := by
  cases i with
  | nop => exact .inl (execNop_next h)
  | init =>
    rcases execInit_next h with ⟨-, rfl⟩ | ⟨hf, hb, rfl⟩ | ⟨hf, hb, rfl⟩
    · exact .inl rfl
    · exact .inr (.inl ⟨hf, _, rfl, .inr (.inr ⟨.inl rfl, hb⟩)⟩)
    · exact .inr (.inr (.inl ⟨hf, rfl, hb, rfl⟩))
  | process blocks =>
    rcases execProcess_next h with ⟨-, rfl⟩ | ⟨hf, hb, rfl⟩ | ⟨hf, hb, -, rfl⟩ | ⟨hf, hb, hl, hs, rfl⟩
    · exact .inl rfl
    · exact .inr (.inl ⟨hf, _, rfl, .inl ⟨rfl, hb⟩⟩)
    · exact .inr (.inl ⟨hf, _, rfl, .inr (.inr ⟨.inr rfl, hb⟩)⟩)
    · exact .inr (.inr (.inr ⟨blocks, hf, rfl, hb, hl, hs, rfl⟩))
  | rsvd =>
    rcases execRsvd_next h with ⟨-, rfl⟩ | ⟨hf, rfl⟩
    · exact .inl rfl
    · exact .inr (.inl ⟨hf, _, rfl, .inr (.inl rfl)⟩)

/-- What a step can do: idle, take the reset input, or execute the command presented. -/
theorem step_next {s t : State} (h : step s = .next t) :
    (s.port = [] ∧ t = s) ∨ (∃ rest, s.port = .reset :: rest ∧ t = assertReset { s with port := rest }) ∨
      (∃ tr rest, s.port = .command tr :: rest ∧ exec (decode tr) { s with port := rest } = .next t) := by
  unfold step nextInput at h
  cases hp : s.port with
  | nil => rw [hp] at h; cases h; exact .inl ⟨rfl, rfl⟩
  | cons input rest =>
    rw [hp] at h
    cases input with
    | reset => cases h; exact .inr (.inl ⟨rest, rfl, rfl⟩)
    | command tr => exact .inr (.inr ⟨tr, rest, rfl, h⟩)

end Sys2Proof.Machine
end

