-- ==== Sys2Proof/Laws/PerInstr.lean ====
section
/-! SUPPORT. One law for every command as syntax: the transfer that presents it decodes back to it (30_encoding.md R62). -/

namespace Sys2Proof.Laws.RoundTrip

/-- Presenting a command and decoding the port gives the command. -/
def Statement (i : Instr) : Prop := decode (encode i) = i

theorem nop : Statement .nop := rfl

theorem init : Statement .init := rfl

theorem process (blocks : List Word) : Statement (.process blocks) := rfl

theorem rsvd : Statement .rsvd := rfl

end Sys2Proof.Laws.RoundTrip
end

