-- ==== Sys2Proof/Tests/Slice0.lean ====
section
/-! SUPPORT. The model's own tests: the spec's encodings and vectors (95_test_vectors.md), an ill-formed term for each check,
and for each statement with hypotheses a state and operands that meet them. -/

namespace Sys2Proof.Tests

open Sys2Proof Sys2Proof.Machine

/-! ## Test configurations (95_test_vectors.md section 2) -/

/-- A configuration with the phase pair of the prototype `g`, laid out as 40_coefficient_table.md R82 and R83 say. -/
def pairOf (nch nw shift : Nat) (g : List Int) : Params where
  nch := nch
  nw := nw
  n := 32 * nw
  pad := 16
  nact := 32 * nw - 16
  aw := 32
  cw := 32
  shift := shift
  filler := 0x55555555#32
  ta := List.replicate 16 0 ++ g
  tb := g ++ List.replicate 16 0

/-- `g[i] = i + 1` for `i < k`, the prototype of TINY and SMALL. -/
def ramp (k : Nat) : List Int := (List.range k).map fun i => (i : Int) + 1

/-- TINY. -/
def tinyParams : Params := pairOf 1 1 0 (ramp 16)

/-- SMALL, with `nch` channels. -/
def smallParams (nch : Nat) : Params := pairOf nch 2 1 (ramp 48)

/-- SIGNED's prototype, `-24 .. 23`. -/
def signedG : List Int := (List.range 48).map fun i => (i : Int) - 24

def small : Cfg := ⟨smallParams 1, by decide +kernel⟩

def small2 : Cfg := ⟨smallParams 2, by decide +kernel⟩

/-- Three words a channel, all taps 1: the least window with a word that is neither the newest, nor its copy. -/
def deep : Cfg := ⟨pairOf 1 3 0 (List.replicate 80 1), by decide +kernel⟩

/-- A machine with this history, `STATUS` and port. -/
def machine (cfg : Cfg) (hist : List (List Word)) (bound fault : Bool) (cause : Cause) (port : List HostInput := []) : State :=
  { cfg := cfg, hist := hist, bound := bound, fault := fault, cause := cause, port := port, results := [] }

/-- The filler word. -/
def fil : Word := 0x55555555#32

/-- SMALL after reset. -/
def fresh (port : List HostInput := []) : State := machine small [[fil, fil]] false false .noFault port

/-- SMALL after reset and `INIT`. -/
def ready (port : List HostInput := []) : State := machine small [[fil, fil]] true false .noFault port

/-- SMALL after a second `INIT` (V-D5). -/
def stuck (port : List HostInput := []) : State := machine small [[fil, fil]] true true .reinit port

/-- What `STATUS` and the history are after one command or step. -/
def seen : Host.Outcome State Fault Refusal → Option (BitVec 5 × List (List Word))
  | .next t => some (t.status, t.hist)
  | _ => none

/-- The samples of the last delivery. -/
def heard : Host.Outcome State Fault Refusal → Option (List Int × List Int)
  | .next t => t.results.getLast?.map fun r => (r.out0.map BitVec.toInt, r.out1.map BitVec.toInt)
  | _ => none

/-! ## Decoding: the words of 30_encoding.md R61, R62, bit by bit -/

theorem test_decode_nop : decode ⟨0b00#2, []⟩ = .nop := by decide

theorem test_decode_init : decode ⟨0b01#2, []⟩ = .init := by decide

theorem test_decode_process : decode ⟨0b10#2, [0xDEADBEEF#32, 0x01234567#32]⟩ = .process [0xDEADBEEF#32, 0x01234567#32] := by decide

theorem test_decode_rsvd_ignores_data : decode ⟨0b11#2, [0xDEADBEEF#32]⟩ = .rsvd := by decide

/-- Program P4, line 3: command word `0b10`, data words `0xDEADBEEF`, `0xFFFFFFFF`. -/
theorem test_table_word_process :
    decodeTableWordFor 2 72 (0x02 + 0xDEADBEEF * 2 ^ 8 + 0xFFFFFFFF * 2 ^ 40) = some (.process [0xDEADBEEF#32, 0xFFFFFFFF#32]) := by
  decide

/-- `FEED 2, x` on two channels is two `PROCESS` commands (30_encoding.md R73). -/
theorem test_feed_expands : (Line.feed 2 fil).inputs 2 = [.command ⟨0b10#2, [fil, fil]⟩, .command ⟨0b10#2, [fil, fil]⟩] := by decide

/-- The first command after reset, `INIT`: the next step runs it. -/
theorem test_first_step_init : (seen (step (State.reset.withFetchWord 8 0x1))).map Prod.fst = some 0b00001 := by decide

/-- The first command after reset, `PROCESS` (program P2, line 2). -/
theorem test_first_step_process : (seen (step (State.reset.withFetchWord 8 0x2))).map Prod.fst = some 0b00110 := by decide

/-! ## Ill-formed terms, each refused by its check -/

theorem test_small_is_well_formed : (smallParams 1).refusal = none := by decide +kernel

/-- SMALL with `SHIFT = 20` is well formed and with `SHIFT = 21` is not (95_test_vectors.md section 2). -/
theorem test_refuse_overflow :
    ({ smallParams 1 with shift := 20 } : Params).refusal = none ∧
      ({ smallParams 1 with shift := 21 } : Params).refusal = some .coefficientsOverflow := by decide +kernel

theorem test_refuse_no_channels : ({ tinyParams with nch := 0 } : Params).refusal = some .noChannels := by decide +kernel

theorem test_refuse_no_words : ({ tinyParams with nw := 0 } : Params).refusal = some .noWords := by decide +kernel

theorem test_refuse_window_length : ({ tinyParams with n := 31 } : Params).refusal = some .windowLength := by decide +kernel

theorem test_refuse_pad_length : ({ tinyParams with pad := 8 } : Params).refusal = some .padLength := by decide +kernel

theorem test_refuse_active_taps : ({ tinyParams with nact := 17 } : Params).refusal = some .activeTaps := by decide +kernel

theorem test_refuse_accumulator_width : ({ tinyParams with aw := 31 } : Params).refusal = some .accumulatorWidth := by decide +kernel

theorem test_refuse_entry_width : ({ tinyParams with cw := 16 } : Params).refusal = some .entryWidth := by decide +kernel

theorem test_refuse_shift : ({ tinyParams with shift := 32 } : Params).refusal = some .shiftRange := by decide +kernel

theorem test_refuse_table_length : ({ tinyParams with tb := ramp 31 } : Params).refusal = some .tableLength := by decide +kernel

theorem test_refuse_entry_range :
    ({ tinyParams with ta := 2147483648 :: List.replicate 31 0 } : Params).refusal = some .entryRange := by decide +kernel

/-- `PAD < N` follows from the conditions before it, so its check is shown on its own. -/
theorem test_refuse_pad_covers_window : ¬ ({ tinyParams with pad := 32 } : Params).pad < tinyParams.n := by decide

theorem test_ill_formed_operand : (Instr.process [fil]).wf 2 = false ∧ (Instr.process [fil, fil, fil]).wf 2 = false := by decide

/-! ## Micro-operations (95_test_vectors.md 3.1, 3.2) -/

theorem test_ingest : ingest [fil, fil] 0xDEADBEEF#32 = [0xDEADBEEF#32, fil] := by decide

theorem test_advance :
    advance [0xDEADBEEF#32, 0x01234567#32, fil] = [0xDEADBEEF#32, 0xDEADBEEF#32, 0x01234567#32] := by decide

/-- V-C1, the example of 42_convolution.md R100. -/
theorem test_conv_example : conv 32 [0x80000001#32] (List.replicate 32 1) = -28 := by decide

/-- V-C9, V-C11: a one at age 31, a one at age 63. -/
theorem test_conv_ages :
    conv 64 [0x00000001#32, 0] small.ta = -1144 ∧ conv 64 [0x00000001#32, 0] small.tb = -1112 ∧
      conv 64 [0, 0x00000001#32] small.ta = -1080 ∧ conv 64 [0, 0x00000001#32] small.tb = -1176 := by decide +kernel

/-- V-C17, taps of both signs. -/
theorem test_conv_signed :
    conv 64 [0, 0x007FFFFF#32] (List.replicate 16 0 ++ signedG) = 576 ∧
      conv 64 [0, 0x007FFFFF#32] (signedG ++ List.replicate 16 0) = 304 := by decide +kernel

/-! ## Commands (95_test_vectors.md 3.3, 3.4, 3.5, program P4) -/

/-- V-D1. -/
theorem test_nop : seen (exec .nop (ready)) = some (0b00001, [[fil, fil]]) := by decide

/-- V-D11. -/
theorem test_nop_faulted : seen (exec .nop (machine small [[fil, fil]] false true .uninitUse)) = some (0b00110, [[fil, fil]]) := by
  decide

/-- V-D2. -/
theorem test_init : seen (exec .init (fresh)) = some (0b00001, [[fil, fil]]) := by decide

/-- V-D5. -/
theorem test_init_twice : seen (exec .init (ready)) = some (0b01011, [[fil, fil]]) := by decide

/-- V-D6. -/
theorem test_rsvd : seen (exec .rsvd (ready)) = some (0b01111, [[fil, fil]]) := by decide

/-- V-D10: ignored, the first code stays. -/
theorem test_rsvd_faulted : seen (exec .rsvd (stuck)) = some (0b01011, [[fil, fil]]) := by decide

/-- Program P4, line 5: two channels, after lines 3 and 4. -/
theorem test_process_two_channels :
    heard (exec (.process [0x89ABCDEF#32, 0#32])
        (machine small2 [[0x01234567#32, 0x01234567#32], [0xFFFFFFFF#32, 0xFFFFFFFF#32]] true false .noFault))
      = some ([-104, 1808], [-120, 240]) := by decide +kernel

/-- V-D13: early and misshapen, `UNINIT_USE` wins. -/
theorem test_process_early_and_misshapen :
    seen (exec (.process [0#32]) (machine small2 [[fil, fil], [fil, fil]] false false .noFault))
      = some (0b00110, [[fil, fil], [fil, fil]]) := by decide

/-- V-R2. -/
theorem test_reset_input :
    seen (step (machine small [[0x89ABCDEF#32, 0x89ABCDEF#32]] true true .illegalCmd [.reset])) = some (0b00000, [[fil, fil]]) := by
  decide

/-! ## Witnesses: for each statement with hypotheses, a state and operands that meet them -/

theorem witness_StepRunsThePresentedCommand :
    (ready [.command (encode .nop), .reset]).port = .command (encode .nop) :: [.reset] := rfl

theorem witness_ResetInputRestoresTheConstructedState : (stuck [.reset]).port = .reset :: [] := rfl

theorem witness_IdleBlockKeepsItsState : (ready).port = [] := rfl

theorem witness_TableWordRoundTrip : (Instr.process [0xFFFFFFFF#32, 0#32]).wf 2 = true ∧ Instr.rsvd.wf 2 = true := by decide

theorem witness_InitBindsTheTablesOnce :
    ((fresh).fault = false ∧ (fresh).bound = false) ∧ ((ready).fault = false ∧ (ready).bound = true) ∧ (stuck).fault = true := by
  decide

theorem witness_RsvdFaultsIllegalCommand : (ready).fault = false ∧ (stuck).fault = true := by decide

theorem witness_ProcessBeforeInitFaults : (fresh).fault = false ∧ (fresh).bound = false := by decide

/-- One word too few and one too many. -/
theorem witness_ProcessOfWrongShapeFaults :
    Ready (ready) ∧ ([] : List Word).length ≠ (ready).cfg.nch ∧ [fil, fil].length ≠ (ready).cfg.nch := by decide

theorem witness_FirstFaultConditionDecides :
    (stuck).fault = true ∧ (fresh).fault = false ∧ firstFault .rsvd (fresh) = some .illegalCmd ∧
      firstFault .init (ready) = some .reinit ∧ firstFault (.process []) (fresh) = some .uninitUse ∧
      firstFault (.process []) (ready) = some .badShape ∧ firstFault (.process [fil]) (ready) = none ∧
      exec (.process [fil]) (ready) = .next (processLanes [fil] (ready)) :=
  ⟨by decide, by decide, by decide, by decide, by decide, by decide, by decide, rfl⟩

/-- Windows of two words, and of three, where a word is neither the newest nor its copy. -/
theorem witness_ReadyProcessRunsEveryLane :
    CanProcess [0xDEADBEEF#32] (ready) ∧ CanProcess [0xDEADBEEF#32] (machine deep [[1, 2, 3]] true false .noFault) ∧
      0 < (ready).cfg.nch ∧ 1 < (ready).cfg.nw ∧ 2 < deep.nw := by decide

theorem witness_CommandsKeepConfigurationAndPort : exec .init (fresh) = .next { fresh with bound := true } := rfl

theorem witness_OnlyARunningProcessWritesHistory :
    exec (.process [fil]) (ready) = .next (processLanes [fil] (ready)) ∧ exec .nop (ready) = .next (ready) := ⟨rfl, rfl⟩

theorem witness_FaultEntryChangesNothingElse :
    (ready).fault = false ∧ exec .rsvd (ready) = .next (raiseFault .illegalCmd (ready)) ∧
      (raiseFault .illegalCmd (ready)).fault = true := ⟨rfl, rfl, rfl⟩

theorem witness_FaultStateIgnoresEveryCommand : (stuck).fault = true := rfl

theorem witness_OnlyResetLeavesTheFaultState :
    ((stuck [.reset]).fault = true ∧ (stuck [.reset]).port.head? = some .reset) ∧
      ((stuck [.command (encode .init)]).fault = true ∧ (stuck [.command (encode .init)]).port.head? ≠ some .reset) := by decide

theorem witness_OnlyInitSetsAndOnlyResetClearsBound :
    (step (fresh [.command (encode .init)]) = .next { fresh with bound := true } ∧ (fresh).bound = false) ∧
      (step (ready [.reset]) = .next (assertReset (ready)) ∧ (ready).bound = true ∧ (assertReset (ready)).bound = false) :=
  ⟨⟨rfl, rfl⟩, rfl, rfl, rfl⟩

theorem witness_StepKeepsTheConfiguration : step (stuck [.reset]) = .next (assertReset (stuck)) := rfl

theorem witness_SamplesComeOnlyFromAReadyProcess :
    step (ready [.command (encode (.process [fil]))]) = .next (processLanes [fil] (ready)) ∧ step (ready) = .next (ready) :=
  ⟨rfl, rfl⟩

theorem witness_NothingElseSurvivesBetweenCommands :
    (ready).cfg = (ready [.reset]).cfg ∧ (ready).hist = (ready [.reset]).hist ∧ (ready).bound = (ready [.reset]).bound ∧
      (ready).fault = (ready [.reset]).fault ∧ (ready).cause = (ready [.reset]).cause ∧
      exec (.process [fil]) (ready [.reset]) = .next (processLanes [fil] (ready [.reset])) := ⟨rfl, rfl, rfl, rfl, rfl, rfl⟩

/-- The two premises of each of the four entries, the second clause at `REINIT` and at `BAD_SHAPE` with one word too few, and
flags that agree with and without a fault. -/
theorem witness_EachFaultRecordsItsCode :
    ((fresh).fault = false ∧ (fresh).bound = false) ∧
      ((ready).fault = false ∧ (ready).bound = true ∧ ([] : List Word).length ≠ (ready).cfg.nch) ∧
      (exec .init (ready) = .next (raiseFault .reinit (ready)) ∧
        exec (.process []) (ready) = .next (raiseFault .badShape (ready)) ∧ (raiseFault .badShape (ready)).fault = true) ∧
      FlagsAgree (ready) ∧ FlagsAgree (stuck) :=
  ⟨by decide, by decide, ⟨rfl, rfl, rfl⟩, by decide, by decide⟩

theorem witness_LifecycleModes :
    (fresh).mode = .unbound ∧ (ready).mode = .ready ∧ (stuck).mode = .faulted ∧ [fil].length = (ready).cfg.nch ∧
      (ready).Shaped := by decide

/-- SMALL after the first call of V-P3: one array delivered. -/
def afterOneCall : State :=
  { machine small [[0xDEADBEEF#32, 0xDEADBEEF#32]] true false .noFault with results := [⟨[216#32], [600#32]⟩] }

theorem afterOneCall_inv : Inv afterOneCall := by
  refine ⟨by decide, by decide, by decide, by decide, fun r hr p => ?_⟩
  obtain rfl := List.mem_singleton.mp hr
  cases p <;> refine ⟨rfl, fun v hv => ?_⟩ <;> obtain rfl := List.mem_singleton.mp hv <;> decide +kernel

/-- What the host presents next is no part of the invariant. -/
theorem inv_port {s : State} (h : Inv s) (port : List HostInput) : Inv { s with port := port } := h

theorem witness_EveryStepKeepsTheInvariant :
    Inv { afterOneCall with port := [.command (encode .rsvd)] } ∧
      step { afterOneCall with port := [.command (encode .rsvd)] } = .next (raiseFault .illegalCmd afterOneCall) :=
  ⟨inv_port afterOneCall_inv _, rfl⟩

theorem witness_EveryInputIsAnswered : Inv { afterOneCall with port := [.command (encode (.process [fil]))] } :=
  inv_port afterOneCall_inv _

theorem witness_BringUpReachesReady :
    [fil].length = (stuck).cfg.nch ∧
      (stuck [.reset, .command (encode .init), .command (encode (.process [fil]))]).port =
        .reset :: .command (encode .init) :: .command (encode (.process [fil])) :: [] := ⟨rfl, rfl⟩

theorem witness_PartialSumsFitTheAccumulator : ({0, 63} : Finset Nat) ⊆ Finset.range small.n := by decide

/-- A whole window complemented; one bit flipped at the newest and at the oldest age; two tables of one length. -/
theorem witness_ConvolutionLaws :
    64 ≤ 32 * [0#32, 0#32].length ∧
      ((∀ e < 64, e ≠ 0 → win [0x80000000#32, 0] e = win [0, 0] e) ∧ win [0#32, 0] 0 = false ∧ win [0x80000000#32, 0] 0 = true) ∧
      ((∀ e < 64, e ≠ 63 → win [0#32, 1] e = win [0, 0] e) ∧ win [0#32, 0] 63 = false ∧ win [0#32, 1] 63 = true) ∧
      (ramp 16).length = (List.replicate 16 (1 : Int)).length := by decide +kernel

theorem witness_ConvolutionExtremes :
    (∀ a < small.ta.length, 0 ≤ memRead small.ta a) ∧ (∀ a < small.ta.length, win [0xFFFFFFFF#32, 0xFFFFFFFF#32] a = true) ∧
      ∀ a < small.ta.length, win [0#32, 0#32] a = false := by decide +kernel

theorem witness_PhasePairConvolutions : PadZero small.toParams ∧ PhasePair small.toParams (ramp 48) := by decide +kernel

theorem witness_EveryLaneScheduleGivesTheSameResult :
    [fil, 0#32].length = [[fil, fil], [fil, fil]].length ∧
      ∀ c < [[fil, fil], [fil, fil]].length, [0, 1, 1, 0, 0, 0, 1, 0, 1, 1, 0, 1].count c = 6 := by decide

/-- Two machines that agree on channel 0 only. -/
theorem witness_ChannelsAreIndependent :
    ∃ s s' t t' r r', s'.cfg = s.cfg ∧ CanProcess [fil, 0#32] s ∧ CanProcess [fil, 1#32] s' ∧
      s'.hist.getD 0 [] = s.hist.getD 0 [] ∧ [fil, 1#32].getD 0 0 = [fil, 0#32].getD 0 0 ∧
      ProcessesTo [fil, 0#32] s t r ∧ ProcessesTo [fil, 1#32] s' t' r' ∧ (stuck).fault = true :=
  ⟨machine small2 [[fil, fil], [1, 2]] true false .noFault, machine small2 [[fil, fil], [3, 4]] true false .noFault, _, _, _, _,
    rfl, by decide, by decide, rfl, rfl, ⟨rfl, rfl⟩, ⟨rfl, rfl⟩, rfl⟩

theorem witness_IdleWordZeroIsDead :
    CanProcess [fil] (ready) ∧ ({ ready with hist := [[0xDEADBEEF#32, fil]] } : State).Shaped ∧
      ∀ c < (ready).cfg.nch, ([[0xDEADBEEF#32, fil]].getD c []).tail = ((ready).hist.getD c []).tail := by decide

/-- Blocks that differ in the 16 newest bits only; histories that differ in the 16 oldest bits only. -/
theorem witness_EachSlotIsBlindToItsPaddedBatch :
    (∃ t t' r r', PadZero (ready).cfg.toParams ∧ CanProcess [0x0000BEEF#32] (ready) ∧ CanProcess [0xFFFFBEEF#32] (ready) ∧
      0 < (ready).cfg.nch ∧ ProcessesTo [0x0000BEEF#32] (ready) t r ∧ ProcessesTo [0xFFFFBEEF#32] (ready) t' r' ∧
      ∀ a, 16 ≤ a → a < 64 → win (windowOf (ready) [0xFFFFBEEF#32] 0) a = win (windowOf (ready) [0x0000BEEF#32] 0) a) ∧
    ∃ t t' r r', CanProcess [fil] (machine small [[fil, 0x55550000#32]] true false .noFault) ∧
      ProcessesTo [fil] (ready) t r ∧ ProcessesTo [fil] (machine small [[fil, 0x55550000#32]] true false .noFault) t' r' ∧
      ∀ a, a + 16 < 64 →
        win (windowOf (machine small [[fil, 0x55550000#32]] true false .noFault) [fil] 0) a = win (windowOf (ready) [fil] 0) a := by
  refine ⟨⟨_, _, _, _, by decide +kernel, by decide, by decide, by decide, ⟨rfl, rfl⟩, ⟨rfl, rfl⟩, ?_⟩,
    ⟨_, _, _, _, by decide, ⟨rfl, rfl⟩, ⟨rfl, rfl⟩, ?_⟩⟩
  · intro a h1 h2
    exact (by decide +kernel : ∀ a < 64, 16 ≤ a →
      win (windowOf (ready) [0xFFFFBEEF#32] 0) a = win (windowOf (ready) [0x0000BEEF#32] 0) a) a h2 h1
  · intro a h
    exact (by decide +kernel : ∀ a < 48,
      win (windowOf (machine small [[fil, 0x55550000#32]] true false .noFault) [fil] 0) a = win (windowOf (ready) [fil] 0) a)
      a (by omega)

/-- A stream: filler, then one block, then another. -/
def twoBlocks (x y : Word) : BlockStream := fun j => if j = 1 then x else if j = 2 then y else fil

theorem ready_idle (port : List HostInput) (x y : Word) : WinIdle (ready port) 0 (twoBlocks x y) 0 := by
  refine ⟨rfl, fun w h1 h2 => ?_⟩
  obtain rfl : w = 1 := by have : w < 2 := h2; omega
  rfl

theorem witness_WindowIsASliceOfTheStream : WinConv 2 [0xDEADBEEF#32, fil] (twoBlocks 0xDEADBEEF#32 0) 1 := by
  intro w hw
  interval_cases w <;> rfl

theorem witness_WindowHoldsTheMostRecentBlocks :
    (Fresh (fresh) ∧ 0 < (fresh).cfg.nch ∧ ∀ j ≤ 0, twoBlocks 1 2 j = (fresh).cfg.filler) ∧
      CanProcess [7] (ready) ∧ 0 < (ready).cfg.nch ∧ WinIdle (ready) 0 (twoBlocks 7 9) (1 - 1) ∧
      [7].getD 0 0 = twoBlocks 7 9 1 := by
  refine ⟨⟨by decide, by decide, fun j hj => ?_⟩, by decide, by decide, ready_idle _ _ _, rfl⟩
  rw [twoBlocks, if_neg (by omega), if_neg (by omega)]; rfl

theorem witness_SamplesFollowTheStream :
    CanProcess [7] (ready) ∧ 0 < (ready).cfg.nch ∧ WinIdle (ready) 0 (twoBlocks 7 9) (1 - 1) ∧
      [7].getD 0 0 = twoBlocks 7 9 1 := ⟨by decide, by decide, ready_idle _ _ _, rfl⟩

/-- Two calls on SMALL, and a command after them. -/
theorem witness_DecimatedStreamIsEverySixteenthFilterOutput :
    ∃ s, PadZero s.cfg.toParams ∧ PhasePair s.cfg.toParams (ramp 48) ∧ Ready s ∧ s.Shaped ∧ 0 < s.cfg.nch ∧
      WinIdle s 0 (twoBlocks 7 9) 0 ∧ (∀ blocks ∈ [[7], [9]], blocks.length = s.cfg.nch) ∧
      InOrder 0 (twoBlocks 7 9) [[7], [9]] ∧
      s.port = [[7], [9]].map (fun blocks => .command (encode (.process blocks))) ++ [.reset] := by
  refine ⟨ready [.command (encode (.process [7])), .command (encode (.process [9])), .reset], by decide +kernel,
    by decide +kernel, by decide, by decide, by decide, ready_idle _ _ _, by decide, fun k hk => ?_, rfl⟩
  have : k < 2 := hk
  interval_cases k <;> rfl

theorem witness_SilenceGivesTheBaseline :
    (CanProcess [fil] (ready) ∧ 0 < (ready).cfg.nch ∧ [fil].getD 0 0 = 0x55555555#32 ∧
      ∀ w < (ready).cfg.nw, 1 ≤ w → (ready).word 0 w = 0x55555555#32) ∧
      PadZero small.toParams ∧ PhasePair small.toParams (ramp 48) := by decide +kernel

/-- The stream of 43_decimator.md R129: filler with one bit of block 1 flipped. -/
def impulse (b : Nat) : BlockStream := fun j => if j = 1 then 0x55555555#32 ^^^ (1#32 <<< b) else 0x55555555#32

/-- Call 1 with the newest bit (V-P4), the last call of the window with the oldest bit (V-P5), and the call after it. -/
theorem witness_ImpulseTracesTheTable :
    (∀ b j, impulse b j = if j = 1 then 0x55555555#32 ^^^ (1#32 <<< b) else 0x55555555#32) ∧
      (CanProcess [0xD5555555#32] (ready) ∧ WinIdle (ready) 0 (impulse 31) ((1 : Nat) - 1) ∧
        [0xD5555555#32].getD 0 0 = impulse 31 (1 : Nat) ∧ 1 ≤ small.nw) ∧
      (CanProcess [fil] (machine small [[0x55555554#32, 0x55555554#32]] true false .noFault) ∧
        WinIdle (machine small [[0x55555554#32, 0x55555554#32]] true false .noFault) 0 (impulse 0) ((2 : Nat) - 1) ∧
        [fil].getD 0 0 = impulse 0 (2 : Nat) ∧ 2 ≤ small.nw) ∧
      (CanProcess [fil] (ready) ∧ WinIdle (ready) 0 (impulse 0) ((3 : Nat) - 1) ∧ [fil].getD 0 0 = impulse 0 (3 : Nat) ∧
        ¬ 3 ≤ small.nw) := by
  refine ⟨fun _ _ => rfl, ⟨by decide, ⟨rfl, fun w h1 h2 => ?_⟩, rfl, by decide⟩,
    ⟨by decide, ⟨rfl, fun w h1 h2 => ?_⟩, rfl, by decide⟩, ⟨by decide, ⟨rfl, fun w h1 h2 => ?_⟩, rfl, by decide⟩⟩
  all_goals
    obtain rfl : w = 1 := by have : w < 2 := h2; omega
    rfl

theorem witness_ConstantStreamRepeats :
    CanProcess [7] (machine deep [[0, 7, 7]] true false .noFault) ∧
      ∀ c < deep.nch, ∀ w < deep.nw, 1 ≤ w → (machine deep [[0, 7, 7]] true false .noFault).word c w = [7].getD c 0 := by decide

end Sys2Proof.Tests
end

/-! ## Configuration, reset and the invariant -/

namespace Sys2Proof.Proofs

/-- Settles O26: each link of the chain of checks passes exactly when its condition holds (`guard_none`), and the links
stand in the order of the conditions of `CfgOK` (00_scope.md R8). -/
theorem onlyIllFormedConfigurationsAreRefused : Obligations.OnlyIllFormedConfigurationsAreRefused := by
  intro p
  simp only [Params.refusal, guard_none, and_true]

end Sys2Proof.Proofs

/-! ## State: the samples fit, commands keep their frame, the invariant -/

namespace Sys2Proof.Proofs

open Sys2Proof.Machine

/-! ### Samples fit their table -/

/-- However the ages are chosen, the signed taps of these ages stay within the mass of the table (42_convolution.md R103). -/
theorem abs_sum_taps_le {t : List Int} {ages : Finset Nat} (row : List Word) (h : ages ⊆ Finset.range t.length) :
    |∑ a ∈ ages, sgn (win row a) * memRead t a| ≤ tableMass t := by
  calc |∑ a ∈ ages, sgn (win row a) * memRead t a|
      ≤ ∑ a ∈ ages, |sgn (win row a) * memRead t a| := Finset.abs_sum_le_sum_abs _ _
    _ = ∑ a ∈ ages, |memRead t a| := by simp only [abs_sgn_mul]
    _ ≤ ∑ a ∈ Finset.range t.length, |memRead t a| :=
        Finset.sum_le_sum_of_subset_of_nonneg h fun _ _ _ => abs_nonneg _
    _ = tableMass t := (tableMass_eq_sum t).symm

theorem abs_conv_le (cfg : Cfg) (p : Phase) (row : List Word) :
    |conv cfg.n row (cfg.table p)| ≤ tableMass (cfg.table p) := by
  rw [conv_eq_sum]
  exact abs_sum_taps_le row (by rw [cfg.table_length])

theorem abs_conv_mul_le (cfg : Cfg) (p : Phase) (row : List Word) :
    |conv cfg.n row (cfg.table p) * 2 ^ cfg.shift| ≤ (tableMass (cfg.table p) * 2 ^ cfg.shift : Nat) := by
  rw [abs_mul, abs_of_nonneg (by positivity : (0 : Int) ≤ 2 ^ cfg.shift)]
  push_cast
  exact mul_le_mul_of_nonneg_right (abs_conv_le cfg p row) (by positivity)

/-- `SCALE` loses no bit: `CoeffOK` keeps the scaled sum inside 32 bits (43_decimator.md R121). -/
theorem scale_conv_toInt (cfg : Cfg) (p : Phase) (row : List Word) :
    (scale cfg.shift (conv cfg.n row (cfg.table p))).toInt = conv cfg.n row (cfg.table p) * 2 ^ cfg.shift := by
  have hmass : ((tableMass (cfg.table p) * 2 ^ cfg.shift : Nat) : Int) ≤ 2 ^ 31 - 1 := by
    have := cfg.mass_le p
    omega
  have hrange := abs_le.mp ((abs_conv_mul_le cfg p row).trans hmass)
  exact BitVec.toInt_ofInt_eq_self (by decide) (by omega) (by omega)

/-- Every sample of the lanes is the scaled convolution of some window. -/
theorem mem_slot_runLanes {cfg : Cfg} {hist : List (List Word)} {blocks : List Word} {p : Phase} {v : Sample}
    (h : v ∈ (Samples.mk ((runLanes cfg hist blocks).map LaneResult.sample0)
      ((runLanes cfg hist blocks).map LaneResult.sample1)).slot p) :
    ∃ window, v = scale cfg.shift (conv cfg.n window (cfg.table p)) := by
  rw [processLanes_slot] at h
  obtain ⟨l, hl, rfl⟩ := List.mem_map.mp h
  obtain ⟨row, -, x, -, rfl⟩ := mem_runLanes hl
  exact ⟨ingest row x, lane_sample cfg row x p⟩

/-! ### History rows -/

/-- After `INGEST` nothing is left of the word that stood in word 0 (41_history_window.md R91). -/
theorem ingest_eq_cons_tail {row : List Word} (h : 1 ≤ row.length) (x : Word) : ingest row x = x :: row.tail := by
  cases row with
  | nil => simp at h
  | cons _ _ => rfl

/-- A lane leaves its block in word 0 and, where there is one, in word 1 (41_history_window.md R95). -/
theorem advance_copies {row : List Word} (h : 2 ≤ (advance row).length) :
    (advance row).getD 0 0 = (advance row).getD 1 0 := by
  rw [advance_length] at h
  rw [advance_getD_zero, advance_getD_succ (w := 0) h]

theorem fillerHistory_word {s : State} (h : s.hist = fillerHistory s.cfg) {c w : Nat} (hc : c < s.cfg.nch)
    (hw : w < s.cfg.nw) : s.word c w = s.cfg.filler := by
  simp [State.word, h, fillerHistory, hc, hw]

/-- A row of the filler history repeats one word. -/
theorem fillerHistory_copies {s : State} (h : s.hist = fillerHistory s.cfg) : IdleCopies s := by
  intro row hrow hlen
  rw [h] at hrow
  obtain rfl := List.eq_of_mem_replicate hrow
  rw [List.length_replicate] at hlen
  rw [List.getD_replicate (h := by omega), List.getD_replicate (h := by omega)]

/-! ### What a command leaves unchanged -/

/-- Settles O15: none of the four things a command can do writes either field. -/
theorem commandsKeepConfigurationAndPort : Obligations.CommandsKeepConfigurationAndPort := by
  intro i s t h
  rcases exec_next h with rfl | ⟨-, code, rfl, -⟩ | ⟨-, -, -, rfl⟩ | ⟨blocks, -, -, -, -, -, rfl⟩
  · exact ⟨rfl, rfl⟩
  · exact ⟨raiseFault_cfg s code, raiseFault_port s code⟩
  · exact ⟨rfl, rfl⟩
  · exact ⟨processLanes_cfg s blocks, processLanes_port s blocks⟩

/-- Settles O16: of the four things a command can do, only running the lanes writes the history or delivers samples. -/
theorem onlyARunningProcessWritesHistory : Obligations.OnlyARunningProcessWritesHistory := by
  intro i s t h
  rcases exec_next h with rfl | ⟨-, code, rfl, -⟩ | ⟨-, -, -, rfl⟩ | ⟨blocks, hf, hi, hb, hl, hs, rfl⟩
  · exact .inl ⟨rfl, rfl⟩
  · exact .inl ⟨raiseFault_hist s code, raiseFault_results s code⟩
  · exact .inl ⟨rfl, rfl⟩
  · exact .inr ⟨blocks, hi, ⟨⟨hf, hb⟩, hl, hs⟩, processLanes_bound s blocks, processLanes_fault s blocks,
      processLanes_cause s blocks⟩

/-- Settles O21: a step idles, resets, or executes a command, and none of them writes the configuration. -/
theorem stepKeepsTheConfiguration : Obligations.StepKeepsTheConfiguration := by
  intro s t h
  rcases step_next h with ⟨-, rfl⟩ | ⟨rest, -, rfl⟩ | ⟨tr, rest, -, hexec⟩
  · rfl
  · exact assertReset_cfg _
  · exact (commandsKeepConfigurationAndPort _ _ _ hexec).1

/-- A command keeps `bound`, unless it is the `INIT` that sets it (10_state.md R24). -/
theorem exec_bound {i : Instr} {s t : State} (h : exec i s = .next t) :
    t.bound = s.bound ∨ (i = .init ∧ s.fault = false ∧ s.bound = false ∧ t.bound = true) := by
  rcases exec_next h with rfl | ⟨-, code, rfl, -⟩ | ⟨hf, hi, hb, rfl⟩ | ⟨blocks, -, -, -, -, -, rfl⟩
  · exact .inl rfl
  · exact .inl (raiseFault_bound s code)
  · exact .inr ⟨hi, hf, hb, rfl⟩
  · exact .inl (processLanes_bound s blocks)

/-- Settles O20: a command can only set `bound`, by `INIT` (`exec_bound`), and reset can only clear it. -/
theorem onlyInitSetsAndOnlyResetClearsBound : Obligations.OnlyInitSetsAndOnlyResetClearsBound := by
  intro s t h
  rcases step_next h with ⟨-, rfl⟩ | ⟨rest, hport, rfl⟩ | ⟨tr, rest, hport, hexec⟩
  · exact ⟨fun h0 h1 => by simp [h0] at h1, fun h1 h0 => by simp [h0] at h1⟩
  · exact ⟨fun _ h1 => by simp at h1, fun _ _ => by simp [hport]⟩
  · rcases exec_bound hexec with hkept | ⟨hi, hf, hb, ht⟩
    · exact ⟨fun h0 h1 => by simp [hkept, h0] at h1, fun h1 h0 => by simp [hkept, h1] at h0⟩
    · exact ⟨fun _ _ => ⟨tr, rest, hport, hi, hf⟩, fun _ h0 => by simp [ht] at h0⟩

/-! ### The meaning of each command, case by case -/

theorem exec_faulted (i : Instr) {s : State} (h : s.fault = true) : exec i s = .next s := by
  cases i <;> simp only [exec, execNop, execInit, execProcess, execRsvd, unlessFaulted_faulted h]

theorem execNop_eq (s : State) : execNop s = .next s := by
  cases h : s.fault
  · exact unlessFaulted_running h _
  · exact unlessFaulted_faulted h _

theorem execInit_binds {s : State} (hf : s.fault = false) (hb : s.bound = false) :
    execInit s = .next { s with bound := true } := by
  rw [execInit, unlessFaulted_running hf, if_neg (by simp [hb])]

theorem execInit_reinit {s : State} (hf : s.fault = false) (hb : s.bound = true) :
    execInit s = .next (raiseFault .reinit s) := by
  rw [execInit, unlessFaulted_running hf, if_pos hb]

theorem execRsvd_illegal {s : State} (hf : s.fault = false) : execRsvd s = .next (raiseFault .illegalCmd s) :=
  unlessFaulted_running hf _

theorem execProcess_uninit {blocks : List Word} {s : State} (hf : s.fault = false) (hb : s.bound = false) :
    execProcess blocks s = .next (raiseFault .uninitUse s) := by
  rw [execProcess, unlessFaulted_running hf, if_pos hb]

theorem execProcess_badShape {blocks : List Word} {s : State} (hf : s.fault = false) (hb : s.bound = true)
    (hl : blocks.length ≠ s.cfg.nch) : execProcess blocks s = .next (raiseFault .badShape s) := by
  rw [execProcess, unlessFaulted_running hf, if_neg (by simp [hb]), if_pos hl]

/-! ### Nothing else decides what a command does -/

/-- The same block at another boundary: with something else presented next and something else delivered before. -/
def withBoundary (s : State) (port : List HostInput) (results : List Samples) : State :=
  { s with port := port, results := results }

/-- A command that answers answers at any boundary, with the same block and the same new samples. -/
theorem exec_withBoundary {i : Instr} {s t : State} (h : exec i s = .next t) (port : List HostInput)
    (results : List Samples) :
    ∃ new, t.results = s.results ++ new ∧
      exec i (withBoundary s port results) = .next (withBoundary t port (results ++ new)) := by
  have silent {t : State} (hres : t.results = s.results)
      (hexec : exec i (withBoundary s port results) = .next (withBoundary t port results)) :
      ∃ new, t.results = s.results ++ new ∧
        exec i (withBoundary s port results) = .next (withBoundary t port (results ++ new)) :=
    ⟨[], by simp [hres], by simpa using hexec⟩
  cases i with
  | nop =>
    obtain rfl := execNop_next h
    exact silent rfl (execNop_eq _)
  | init =>
    rcases execInit_next h with ⟨hf, rfl⟩ | ⟨hf, hb, rfl⟩ | ⟨hf, hb, rfl⟩
    · exact silent rfl (exec_faulted _ hf)
    · exact silent rfl (execInit_reinit hf hb)
    · exact silent rfl (execInit_binds hf hb)
  | process blocks =>
    rcases execProcess_next h with ⟨hf, rfl⟩ | ⟨hf, hb, rfl⟩ | ⟨hf, hb, hl, rfl⟩ | ⟨hf, hb, hl, hs, rfl⟩
    · exact silent rfl (exec_faulted _ hf)
    · exact silent rfl (execProcess_uninit hf hb)
    · exact silent rfl (execProcess_badShape hf hb hl)
    · exact ⟨_, processLanes_results s blocks, execProcess_runs hf hb hl hs⟩
  | rsvd =>
    rcases execRsvd_next h with ⟨hf, rfl⟩ | ⟨hf, rfl⟩
    · exact silent rfl (exec_faulted _ hf)
    · exact silent rfl (execRsvd_illegal hf)

/-- Settles O23: two states that agree on the block differ at most in their boundary, where `exec_withBoundary` compares
them. -/
theorem nothingElseSurvivesBetweenCommands : Obligations.NothingElseSurvivesBetweenCommands := by
  intro i s s' t hcfg hhist hbound hfault hcause h
  have hs' : s' = withBoundary s s'.port s'.results := by
    cases s'
    simp_all [withBoundary]
  obtain ⟨new, hres, hexec⟩ := exec_withBoundary h s'.port s'.results
  exact ⟨new, hres, hs' ▸ hexec⟩

/-! ### Word 0 between calls -/

/-- The lanes see a history row through `INGEST` only. -/
theorem runLanes_congr {cfg : Cfg} {hist hist' : List (List Word)} {blocks : List Word} (hlen : hist'.length = hist.length)
    (hb : blocks.length = hist.length)
    (h : ∀ c < hist.length, ∀ x, ingest (hist'.getD c []) x = ingest (hist.getD c []) x) :
    runLanes cfg hist' blocks = runLanes cfg hist blocks := by
  refine List.ext_getElem (by rw [runLanes_length hb, runLanes_length (hb.trans hlen.symm), hlen]) fun c h' hc => ?_
  rw [runLanes_length hb] at hc
  rw [runLanes_getElem hc hb, runLanes_getElem (hlen ▸ hc) (hb.trans hlen.symm)]
  simp only [lane, h c hc]

/-- Every row of a history of the right shape has a word 0. -/
theorem shaped_row_length_pos {s : State} (hs : s.Shaped) {c : Nat} (hc : c < s.cfg.nch) :
    1 ≤ (s.hist.getD c []).length := by
  obtain ⟨hrows, hwords⟩ := hs
  rw [List.getD_eq_getElem _ _ (hrows ▸ hc), hwords _ (List.getElem_mem _)]
  exact s.cfg.one_le_nw

/-- Settles O42: `INGEST` overwrites word 0 before a lane reads its row, so the lanes of both histories are the same. -/
theorem idleWordZeroIsDead : Obligations.IdleWordZeroIsDead := by
  intro s hist' blocks ⟨⟨hf, hb⟩, hl, hs⟩ hs' htail
  have hlanes : runLanes s.cfg hist' blocks = runLanes s.cfg s.hist blocks := by
    refine runLanes_congr (hs'.1.trans hs.1.symm) (hl.trans hs.1.symm) fun c hc x => ?_
    rw [hs.1] at hc
    rw [ingest_eq_cons_tail (shaped_row_length_pos hs' hc), ingest_eq_cons_tail (shaped_row_length_pos hs hc),
      htail c hc]
  calc exec (.process blocks) { s with hist := hist' }
    _ = .next (processLanes blocks { s with hist := hist' }) := execProcess_runs hf hb hl hs'
    _ = .next (processLanes blocks s) := by simp only [processLanes, hlanes]
    _ = exec (.process blocks) s := (execProcess_runs hf hb hl hs).symm

/-! ### The invariant -/

/-- A block as reset leaves it has the invariant, if what was delivered before fits. -/
theorem inv_of_fresh {s : State} (h : Fresh s) (hres : ResultsFit s) : Inv s := by
  obtain ⟨hhist, hbound, hfault, hcause⟩ := h
  exact ⟨fillerHistory_shaped s hhist, by simp [FlagsAgree, hfault, hcause], fun _ => hhist, fillerHistory_copies hhist, hres⟩

/-- A fault entry keeps the invariant where its code may be raised (60_exceptions.md R135). -/
theorem inv_raiseFault {s : State} {code : Cause} (h : Inv s)
    (hcode : (code = .uninitUse ∧ s.bound = false) ∨ code = .illegalCmd ∨ ((code = .reinit ∨ code = .badShape) ∧ s.bound = true)) :
    Inv (raiseFault code s) := by
  obtain ⟨hshape, -, hfiller, hcopies, hres⟩ := h
  refine ⟨hshape, ?_, hfiller, hcopies, hres⟩
  rcases hcode with ⟨rfl, hb⟩ | rfl | ⟨rfl | rfl, hb⟩ <;> simp [FlagsAgree, *]

theorem inv_bind {s : State} (h : Inv s) (hf : s.fault = false) : Inv { s with bound := true } := by
  obtain ⟨hshape, ⟨hcode, -⟩, -, hcopies, hres⟩ := h
  have hcause : s.cause = .noFault := by simpa [hf] using hcode
  exact ⟨hshape, by simp [FlagsAgree, hf, hcause], fun hb => by simp at hb, hcopies, hres⟩

theorem processLanes_copies (s : State) (blocks : List Word) : IdleCopies (processLanes blocks s) := by
  intro row hrow
  obtain ⟨l, hl, rfl⟩ := List.mem_map.mp hrow
  obtain ⟨row, -, x, -, rfl⟩ := mem_runLanes hl
  exact advance_copies

/-- The array that a `PROCESS` appends fits (30_encoding.md R65, 42_convolution.md R103). -/
theorem processLanes_resultsFit {s : State} {blocks : List Word} (h : ResultsFit s) (hs : s.Shaped)
    (hl : blocks.length = s.cfg.nch) : ResultsFit (processLanes blocks s) := by
  intro r hr p
  rcases List.mem_append.mp hr with hr | hr
  · exact h r hr p
  · obtain rfl := List.mem_singleton.mp hr
    refine ⟨?_, fun v hv => ?_⟩
    · rw [processLanes_slot, List.length_map, runLanes_length (hl.trans hs.1.symm), hs.1, processLanes_cfg]
    · obtain ⟨window, rfl⟩ := mem_slot_runLanes hv
      rw [processLanes_cfg, scale_conv_toInt]
      exact ⟨dvd_mul_left _ _, abs_conv_mul_le s.cfg p window⟩

theorem inv_processLanes {s : State} {blocks : List Word} (h : Inv s) (hb : s.bound = true)
    (hl : blocks.length = s.cfg.nch) : Inv (processLanes blocks s) := by
  obtain ⟨hshape, hflags, -, -, hres⟩ := h
  exact ⟨processLanes_shaped hshape hl, hflags, fun hb' => by simp [hb] at hb', processLanes_copies s blocks,
    processLanes_resultsFit hres hshape hl⟩

/-- Every command keeps the invariant. -/
theorem inv_exec {i : Instr} {s t : State} (h : Inv s) (hexec : exec i s = .next t) : Inv t := by
  rcases exec_next hexec with rfl | ⟨-, code, rfl, hcode⟩ | ⟨hf, -, -, rfl⟩ | ⟨blocks, -, -, hb, hl, -, rfl⟩
  · exact h
  · exact inv_raiseFault h hcode
  · exact inv_bind h hf
  · exact inv_processLanes h hb hl

/-- Settles O30: idling changes nothing, reset makes the block fresh and keeps the delivered samples, and a command keeps
the invariant (`inv_exec`); the port is no part of it. -/
theorem everyStepKeepsTheInvariant : Obligations.EveryStepKeepsTheInvariant := by
  intro s t h hstep
  rcases step_next hstep with ⟨-, rfl⟩ | ⟨rest, -, rfl⟩ | ⟨tr, rest, -, hexec⟩
  · exact h
  · obtain ⟨-, -, -, -, hres⟩ := h
    exact inv_of_fresh ⟨rfl, rfl, rfl, rfl⟩ hres
  · exact inv_exec (s := { s with port := rest }) h hexec

/-! ### The state after reset -/

theorem reset_fresh : Fresh State.reset := ⟨rfl, rfl, rfl, rfl⟩

/-- Settles O27: the history after reset is the filler history, of the reference configuration's filler. -/
theorem resetStateHistoryIsFiller : Obligations.ResetStateHistoryIsFiller :=
  ⟨fillerHistory_shaped _ reset_fresh.1, rfl, fun _ hc _ hw => fillerHistory_word reset_fresh.1 hc hw⟩

/-- Settles O28: each flag of the reset state is 0 by its definition, and `STATUS` and the mode are views of the flags. -/
theorem resetStateFlagsAreZero : Obligations.ResetStateFlagsAreZero := ⟨rfl, rfl, rfl, rfl, rfl⟩

/-- Settles O29: the reset state is fresh and has delivered nothing. -/
theorem resetStateHasTheInvariant : Obligations.ResetStateHasTheInvariant :=
  inv_of_fresh reset_fresh fun _ hr => absurd hr List.not_mem_nil

end Sys2Proof.Proofs

/-! ## Memory: schedules of the lanes, and a window that repeats one word -/

namespace Sys2Proof.Proofs

open Sys2Proof.Machine

/-! ### Schedules of the lanes -/

/-- Under any schedule a lane does as many of its own micro-operations as the schedule gives it, and no other lane's
(20_memory.md R51). -/
theorem runSchedule_getElem? (cfg : Cfg) (schedule : List Nat) (lanes : List LaneRun) (c : Nat) :
    (runSchedule cfg schedule lanes)[c]? = lanes[c]?.map (LaneRun.micro cfg)^[schedule.count c] := by
  induction schedule generalizing lanes with
  | nil => simp [runSchedule]
  | cons d schedule ih =>
    have hstep : runSchedule cfg (d :: schedule) lanes = runSchedule cfg schedule (lanes.modify d (LaneRun.micro cfg)) := rfl
    rw [hstep, ih, List.getElem?_modify]
    by_cases h : d = c
    · subst h
      simp [Function.iterate_succ]
    · simp [h]

/-- The six micro-operations one by one are the work of a lane (43_decimator.md R119). -/
theorem micro_iterate_six_result (cfg : Cfg) (row : List Word) (x : Word) :
    ((LaneRun.micro cfg)^[6] (LaneRun.start row x)).result = lane cfg row x := by
  simp [LaneRun.start, LaneRun.micro, LaneRun.result, lane]

/-- Settles O40: lane by lane, the schedule runs that lane's six micro-operations (`runSchedule_getElem?`), and they are
the work of the lane (`micro_iterate_six_result`). -/
theorem everyLaneScheduleGivesTheSameResult : Obligations.EveryLaneScheduleGivesTheSameResult := by
  intro cfg hist blocks schedule hlen hcount
  refine List.ext_getElem? fun c => ?_
  rw [List.getElem?_map, runSchedule_getElem?]
  rcases lt_or_ge c hist.length with hc | hc
  · have hb : c < blocks.length := hlen ▸ hc
    simpa [hcount c hc, runLanes, hc, hb] using micro_iterate_six_result cfg hist[c] blocks[c]
  · simp [runLanes, hc]

/-! ### A window that repeats one word -/

/-- Words `1 .. NW-1` of a row that all hold `x` (20_memory.md R47). -/
theorem tail_eq_replicate {row : List Word} {x : Word} (h : ∀ w, 1 ≤ w → w < row.length → row.getD w 0 = x) :
    row.tail = List.replicate (row.length - 1) x := by
  refine List.ext_getElem (by simp) fun w hw _ => ?_
  rw [List.length_tail] at hw
  have hword := h (w + 1) (by omega) (by omega)
  rw [List.getD_eq_getElem _ _ (by omega)] at hword
  simpa using hword

/-- Given its own word again, a constant window moves onto itself: the oldest word that `ADVANCE` discards is the word it
brings in (41_history_window.md R92). -/
theorem advance_ingest_tail {row : List Word} {x : Word} (hrow : 1 ≤ row.length)
    (h : ∀ w, 1 ≤ w → w < row.length → row.getD w 0 = x) : (advance (ingest row x)).tail = row.tail := by
  rw [ingest_eq_cons_tail hrow, tail_eq_replicate h]
  simp [advance, ← List.replicate_succ]

/-- The history row that a running `PROCESS` leaves in a channel (43_decimator.md R119). -/
theorem processLanes_row {s : State} {blocks : List Word} (hs : s.Shaped) (hl : blocks.length = s.cfg.nch) {c : Nat}
    (hc : c < s.cfg.nch) : (processLanes blocks s).hist.getD c [] = advance (windowOf s blocks c) := by
  have hrows : c < s.hist.length := hs.1 ▸ hc
  have hlen : blocks.length = s.hist.length := hl.trans hs.1.symm
  rw [processLanes_hist, List.getD_eq_getElem _ _ (by rwa [List.length_map, runLanes_length hlen]), List.getElem_map,
    runLanes_getElem hrows hlen, lane_row, windowOf]

/-- A history word older than word 0 stands in the tail of its row. -/
theorem word_succ (s : State) (c w : Nat) : s.word c (w + 1) = (s.hist.getD c []).tail.getD w 0 := by
  simp [State.word]

/-- A history row of the right shape has `NW` words (10_state.md R21). -/
theorem shaped_row_length {s : State} (hs : s.Shaped) {c : Nat} (hc : c < s.cfg.nch) :
    (s.hist.getD c []).length = s.cfg.nw := by
  obtain ⟨hrows, hwords⟩ := hs
  rw [List.getD_eq_getElem _ _ (hrows ▸ hc)]
  exact hwords _ (List.getElem_mem _)

/-- A `PROCESS` that leaves every history word but word 0 as it is can be repeated: it delivers the same array and leaves
the same history. Word 0 is dead (`idleWordZeroIsDead`), and what was delivered before is not read
(`exec_withBoundary`). -/
theorem processLanes_repeats {s : State} {blocks : List Word} {r : Samples} (h : CanProcess blocks s)
    (hrun : ProcessesTo blocks s (processLanes blocks s) r)
    (htail : ∀ c < s.cfg.nch, ((processLanes blocks s).hist.getD c []).tail = (s.hist.getD c []).tail) :
    ∃ t', ProcessesTo blocks (processLanes blocks s) t' r ∧ t'.hist = (processLanes blocks s).hist := by
  have ⟨_, hl, hs⟩ := h
  obtain ⟨hexec, hres⟩ := hrun
  have hsame := idleWordZeroIsDead s (processLanes blocks s).hist blocks h (processLanes_shaped hs hl) htail
  obtain ⟨new, hnew, hagain⟩ := exec_withBoundary (hsame.trans hexec) s.port (processLanes blocks s).results
  obtain rfl : [r] = new := List.append_cancel_left (hres.symm.trans hnew)
  exact ⟨_, ⟨hagain, rfl⟩, rfl⟩

/-- Settles O50: in every channel the constant window moves onto itself (`advance_ingest_tail`), so the call leaves all
words but word 0 and can be repeated (`processLanes_repeats`). -/
theorem constantStreamRepeats : Obligations.ConstantStreamRepeats := by
  intro s blocks h hconst
  have ⟨⟨hf, hb⟩, hl, hs⟩ := h
  have htail : ∀ c < s.cfg.nch, ((processLanes blocks s).hist.getD c []).tail = (s.hist.getD c []).tail := by
    intro c hc
    rw [processLanes_row hs hl hc]
    exact advance_ingest_tail (shaped_row_length_pos hs hc) fun w h1 hw =>
      hconst c hc w h1 (shaped_row_length hs hc ▸ hw)
  have hrun := And.intro (execProcess_runs hf hb hl hs) (processLanes_results s blocks)
  obtain ⟨t', hrun', hhist⟩ := processLanes_repeats h hrun htail
  refine ⟨_, _, t', hrun, hrun', hhist, fun c hc w h1 _ => ?_⟩
  obtain ⟨w, rfl⟩ := Nat.exists_eq_add_of_le' h1
  rw [word_succ, word_succ, htail c hc]

end Sys2Proof.Proofs

/-! ## Encoding: the words of an operand, the table's bits, decoding and stepping, `STATUS` -/

namespace Sys2Proof.Proofs

open Sys2Proof.Machine

/-! ### Packing the words of an operand -/

/-- A packed operand has 32 bits for each word (30_encoding.md R63). -/
theorem packWords_lt (ws : List Word) : packWords ws < 2 ^ (32 * ws.length) := by
  induction ws with
  | nil => decide
  | cons x xs ih =>
    have hx := x.isLt
    rw [packWords, List.length_cons, Nat.mul_succ, Nat.pow_add]
    omega

theorem unpackWords_packWords (ws : List Word) : unpackWords ws.length (packWords ws) = ws := by
  induction ws with
  | nil => rfl
  | cons x xs ih =>
    have hx := x.isLt
    have hword : BitVec.ofNat 32 (x.toNat + 2 ^ 32 * packWords xs) = x := by
      apply BitVec.eq_of_toNat_eq
      rw [BitVec.toNat_ofNat, Nat.add_mul_mod_self_left, Nat.mod_eq_of_lt hx]
    have hrest : (x.toNat + 2 ^ 32 * packWords xs) / 2 ^ 32 = packWords xs := by omega
    simp only [packWords, List.length_cons, unpackWords, hword, hrest, ih]

theorem unpackWords_zero (k : Nat) : unpackWords k 0 = List.replicate k 0 := by
  induction k with
  | zero => rfl
  | succ k ih => simp [unpackWords, ih, List.replicate_succ]

/-! ### A transfer and its table bits -/

theorem decode_encode (i : Instr) : decode (encode i) = i := by
  cases i with
  | nop => exact Laws.RoundTrip.nop
  | init => exact Laws.RoundTrip.init
  | process blocks => exact Laws.RoundTrip.process blocks
  | rsvd => exact Laws.RoundTrip.rsvd

/-- The operand of a well-formed command is a word for each channel beside the code of `PROCESS`, and nothing beside any
other code: what the decoder of table bits reads (30_encoding.md R62, R63). -/
theorem unpackWords_encode_data {nch : Nat} {i : Instr} (h : i.wf nch = true) :
    (if (encode i).cmd = 0b10#2 then unpackWords nch (packWords (encode i).data) else []) = (encode i).data := by
  cases i with
  | nop => rfl
  | init => rfl
  | process blocks =>
    obtain rfl : blocks.length = nch := by simpa [Instr.wf] using h
    exact unpackWords_packWords blocks
  | rsvd => rfl

/-- The bits of a command fit the length the table gives it. -/
theorem encodeTableWord_lt (i : Instr) : encodeTableWord i < 2 ^ tableWordBits i := by
  have hcmd := (encode i).cmd.isLt
  have hdata := packWords_lt (encode i).data
  rw [encodeTableWord, tableWordBits, Nat.pow_add]
  omega

/-- The command word stands in bits 1:0 (30_encoding.md R61). -/
theorem encodeTableWord_cmd (i : Instr) : BitVec.ofNat 2 (encodeTableWord i) = (encode i).cmd := by
  have hcmd := (encode i).cmd.isLt
  apply BitVec.eq_of_toNat_eq
  rw [BitVec.toNat_ofNat, encodeTableWord]
  omega

/-- The operand stands from bit 8 on (log 12). -/
theorem encodeTableWord_data (i : Instr) : encodeTableWord i / 2 ^ 8 = packWords (encode i).data := by
  have hcmd := (encode i).cmd.isLt
  rw [encodeTableWord]
  omega

/-- The bits of a well-formed command are the bits of the transfer that presents it. -/
theorem transferOfTableWord_encodeTableWord {nch : Nat} {i : Instr} (h : i.wf nch = true) :
    transferOfTableWord nch (tableWordBits i) (encodeTableWord i) = encode i := by
  simp only [transferOfTableWord, Nat.mod_eq_of_lt (encodeTableWord_lt i), encodeTableWord_cmd, encodeTableWord_data,
    unpackWords_encode_data h]

/-- Settles O6: the table bits of a well-formed command are read as the transfer that presents it
(`transferOfTableWord_encodeTableWord`), which decodes to the command (`decode_encode`). -/
theorem tableWordRoundTrip : Obligations.TableWordRoundTrip := by
  intro nch i h
  rw [decodeTableWordFor, transferOfTableWord_encodeTableWord h, decode_encode]

/-! ### Stepping on a presented transfer -/

/-- Settles O1: `step` is its command branch when a command heads the port. -/
theorem stepRunsThePresentedCommand : Obligations.StepRunsThePresentedCommand := by
  intro s tr rest h
  simp only [step, nextInput, h]

/-- Settles O4: the word placed is the transfer at the head of the port, and the state without it is the one it was
placed in. -/
theorem placedTableWordIsExecutedNext : Obligations.PlacedTableWordIsExecutedNext := fun s nbits w =>
  ⟨_, rfl, stepRunsThePresentedCommand (s.withFetchWord nbits w) _ s.port (present_port s _)⟩

/-! ### The command map -/

/-- The four codes, with any data beside them (30_encoding.md R62; log 8). -/
theorem decode_code (data : List Word) : decode ⟨0b00#2, data⟩ = .nop ∧ decode ⟨0b01#2, data⟩ = .init ∧
    decode ⟨0b10#2, data⟩ = .process data ∧ decode ⟨0b11#2, data⟩ = .rsvd := ⟨rfl, rfl, rfl, rfl⟩

/-- A row of 8 bits gives the code alone: the operand of `PROCESS` is then all zeros (log 20). -/
theorem transferOfTableWord_byte (nch : Nat) (c : BitVec 2) :
    transferOfTableWord nch 8 c.toNat = ⟨c, if c = 0b10#2 then List.replicate nch 0 else []⟩ := by
  have hc := c.isLt
  have hbits : c.toNat % 2 ^ 8 = c.toNat := by omega
  have hrest : c.toNat / 2 ^ 8 = 0 := by omega
  simp only [transferOfTableWord, hbits, hrest, BitVec.ofNat_toNat, BitVec.setWidth_eq, unpackWords_zero]

/-- The rows of the table are read by their code, with zeros for the operand of `PROCESS` (log 20). -/
theorem decodeTableWord_byte (c : BitVec 2) : decodeTableWord 8 c.toNat =
    some (decode ⟨c, if c = 0b10#2 then List.replicate Config.reference.nch 0 else []⟩) := by
  rw [decodeTableWord, decodeTableWordFor, transferOfTableWord_byte]

/-- Settles O5: the codes by `decode_code`, and each row of the table by its code (`decodeTableWord_byte`). -/
theorem commandCodesDecode : Obligations.CommandCodesDecode :=
  ⟨decode_code, decodeTableWord_byte 0b00#2, decodeTableWord_byte 0b01#2, decodeTableWord_byte 0b10#2,
    decodeTableWord_byte 0b11#2⟩

theorem code_cases : ∀ c : BitVec 2, c = 0b00#2 ∨ c = 0b01#2 ∨ c = 0b10#2 ∨ c = 0b11#2 := by decide

/-- Settles O7: code by code, `PROCESS` keeps its data and each other command is encoded without data. -/
theorem onlyIgnoredDataIsLostByDecoding : Obligations.OnlyIgnoredDataIsLostByDecoding := by
  rintro ⟨cmd, data⟩
  obtain ⟨hnop, hinit, hprocess, hrsvd⟩ := decode_code data
  rcases code_cases cmd with rfl | rfl | rfl | rfl
  · simp [hnop, encode, eq_comm]
  · simp [hinit, encode, eq_comm]
  · simp [hprocess, encode]
  · simp [hrsvd, encode, eq_comm]

/-! ### `STATUS` -/

theorem status_bound (s : State) : s.status.getLsbD 0 = s.bound := by
  rw [State.status, BitVec.getLsbD_append]
  simp

theorem status_fault (s : State) : s.status.getLsbD 1 = s.fault := by
  rw [State.status, BitVec.getLsbD_append, BitVec.getLsbD_append]
  simp

theorem status_cause (s : State) : s.status.extractLsb' 2 3 = s.cause.code := by
  rw [State.status, BitVec.append_assoc]
  exact BitVec.extractLsb'_append_eq_left

/-- The codes 5 to 7 are never produced (60_exceptions.md R135). -/
theorem code_le_four (c : Cause) : c.code.toNat ≤ 4 := by
  cases c <;> decide

/-- Settles O24: each field of `STATUS` is read off the flags it is built of; the codes stand in the definition of
`Cause.code`. -/
theorem statusShowsTheFlags : Obligations.StatusShowsTheFlags :=
  ⟨fun s => ⟨status_bound s, status_fault s, status_cause s, code_le_four s.cause⟩, rfl, rfl, rfl, rfl, rfl⟩

end Sys2Proof.Proofs

/-! ## History window: `ADVANCE`, the window as a slice of the stream, and the most recent blocks -/

namespace Sys2Proof.Proofs

open Sys2Proof.Machine

/-! ### `ADVANCE` as its rule writes it -/

@[simp] theorem advanceLoop_length (w : Nat) (row : List Word) : (advanceLoop w row).length = row.length := by
  induction w generalizing row with
  | zero => rfl
  | succ w ih => rw [advanceLoop, ih, List.length_set]

theorem getD_set_of_ne {w i : Nat} (h : w ≠ i) (row : List Word) (x : Word) :
    (row.set w x).getD i 0 = row.getD i 0 := by
  rw [List.getD_eq_getElem?_getD, List.getElem?_set_ne h, List.getD_eq_getElem?_getD]

/-- The loop begun at word `w` writes words `1 .. w` only. -/
theorem advanceLoop_getD_kept {w i : Nat} (hi : i = 0 ∨ w < i) (row : List Word) :
    (advanceLoop w row).getD i 0 = row.getD i 0 := by
  induction w generalizing row with
  | zero => rfl
  | succ w ih =>
    rw [advanceLoop, ih (by omega), getD_set_of_ne (by omega)]

/-- Going down from the old end, the loop reads each word before it writes it (41_history_window.md R92). -/
theorem advanceLoop_getD_succ {w i : Nat} {row : List Word} (hw : w < row.length) (hi : i < w) :
    (advanceLoop w row).getD (i + 1) 0 = row.getD i 0 := by
  induction w generalizing row with
  | zero => omega
  | succ w ih =>
    rw [advanceLoop]
    rcases Nat.lt_succ_iff_lt_or_eq.mp hi with hlt | rfl
    · rw [ih (by rw [List.length_set]; omega) hlt, getD_set_of_ne (by omega)]
    · rw [advanceLoop_getD_kept (.inr (Nat.lt_succ_self i)), List.getD_eq_getElem _ _ (by rwa [List.length_set]),
        List.getElem_set_self]

/-- A history row is its words. -/
theorem row_ext {row row' : List Word} (hlen : row.length = row'.length)
    (h : ∀ w < row.length, row.getD w 0 = row'.getD w 0) : row = row' := by
  refine List.ext_getElem hlen fun w hw hw' => ?_
  rw [← List.getD_eq_getElem _ 0 hw, ← List.getD_eq_getElem _ 0 hw', h w hw]

theorem advanceLoop_eq_advance (row : List Word) : advanceLoop (row.length - 1) row = advance row := by
  refine row_ext (by rw [advanceLoop_length, advance_length]) fun w hw => ?_
  rw [advanceLoop_length] at hw
  cases w with
  | zero => rw [advanceLoop_getD_kept (.inl rfl), advance_getD_zero]
  | succ w => rw [advanceLoop_getD_succ (by omega) (by omega), advance_getD_succ hw]

/-- Settles O39: the loop agrees with the shift register word by word (`advanceLoop_eq_advance`), and the laws of the
shift register place each word. -/
theorem advanceMovesEveryWordOnePlace : Obligations.AdvanceMovesEveryWordOnePlace := by
  intro row
  refine ⟨advanceLoop_eq_advance row, advance_length row, advance_getD_zero row, fun w h1 hw => ?_⟩
  obtain ⟨w, rfl⟩ := Nat.exists_eq_add_of_le' h1
  exact advance_getD_succ hw

/-! ### The window over the stream -/

/-- Bit `b` of word `d` has age `32 d + 31 - b` (20_memory.md R44). -/
theorem win_block (row : List Word) (d : Nat) {b : Nat} (hb : b < 32) :
    win row (32 * d + 31 - b) = blockBit (row.getD d 0) b := by
  have hword : (32 * d + 31 - b) / 32 = d := by omega
  have hbit : 31 - (32 * d + 31 - b) % 32 = b := by omega
  rw [win, hword, hbit]

/-- Bit `b` of block `k` is bit `32 (k - 1) + b` of the stream. -/
theorem streamBit_block (x : BlockStream) (k : Int) {b : Nat} (hb : b < 32) :
    streamBit x (32 * (k - 1) + b) = blockBit (x k) b := by
  have hblock : (32 * (k - 1) + b) / 32 + 1 = k := by omega
  have hbit : ((32 * (k - 1) + b) % 32).toNat = b := by omega
  rw [streamBit, hblock, hbit]

/-- Settles O44: a bit of a word stands at its age in the window (`win_block`) and at its time in the stream
(`streamBit_block`), and every age is that of one bit of one word. -/
theorem windowIsASliceOfTheStream : Obligations.WindowIsASliceOfTheStream := by
  intro nw row x k hwin
  have hbit : ∀ d < nw, ∀ b < 32, win row (32 * d + 31 - b) = blockBit (x (k - d)) b := by
    intro d hd b hb
    rw [win_block row d hb, hwin d hd]
  refine ⟨hbit, fun a ha => ?_⟩
  obtain ⟨d, b, hb, rfl⟩ : ∃ d b, b < 32 ∧ a = 32 * d + 31 - b := ⟨a / 32, 31 - a % 32, by omega, by omega⟩
  have htime : (32 * k - 1 - (32 * d + 31 - b : Nat) : Int) = 32 * (k - d - 1) + b := by omega
  rw [hbit d (by omega) b hb, htime, streamBit_block x _ hb]

/-! ### The window from call to call -/

/-- Reset is the state after call 0: the stream before it is filler (41_history_window.md R95). -/
theorem winIdle_of_fresh {s : State} {c : Nat} {x : BlockStream} (h : Fresh s) (hc : c < s.cfg.nch)
    (hx : ∀ j ≤ 0, x j = s.cfg.filler) : WinIdle s c x 0 := by
  obtain ⟨hhist, -, -, -⟩ := h
  refine ⟨?_, fun w h1 hw => ?_⟩
  · rw [fillerHistory_word hhist hc s.cfg.one_le_nw, hx 0 le_rfl]
  · rw [fillerHistory_word hhist hc hw, hx _ (by omega)]

/-- `INGEST` completes the kept words to the window of call `k` (41_history_window.md R94). -/
theorem winConv_windowOf {s : State} {blocks : List Word} {c : Nat} {x : BlockStream} {k : Int} (hs : s.Shaped)
    (hc : c < s.cfg.nch) (hidle : WinIdle s c x (k - 1)) (hx : blocks.getD c 0 = x k) :
    WinConv s.cfg.nw (windowOf s blocks c) x k := by
  obtain ⟨-, holder⟩ := hidle
  intro w hw
  cases w with
  | zero => rw [windowOf, ingest_getD_zero (shaped_row_length_pos hs hc), hx, Nat.cast_zero, sub_zero]
  | succ w =>
    rw [windowOf, ingest_getD_succ]
    calc s.word c (w + 1) = x (k - 1 + 1 - (w + 1 : Nat)) := holder (w + 1) (by omega) hw
      _ = x (k - (w + 1 : Nat)) := by rw [sub_add_cancel]

/-- `ADVANCE` at the end of each lane leaves the words that the next call needs (41_history_window.md R95). -/
theorem winIdle_processLanes {s : State} {blocks : List Word} {c : Nat} {x : BlockStream} {k : Int} (hs : s.Shaped)
    (hl : blocks.length = s.cfg.nch) (hc : c < s.cfg.nch) (hwin : WinConv s.cfg.nw (windowOf s blocks c) x k) :
    WinIdle (processLanes blocks s) c x k := by
  have hlen : (windowOf s blocks c).length = s.cfg.nw := by rw [windowOf, ingest_length, shaped_row_length hs hc]
  refine ⟨?_, fun w h1 hw => ?_⟩
  · rw [State.word, processLanes_row hs hl hc, advance_getD_zero, hwin 0 s.cfg.one_le_nw, Nat.cast_zero, sub_zero]
  · obtain ⟨w, rfl⟩ := Nat.exists_eq_add_of_le' h1
    rw [processLanes_cfg] at hw
    rw [State.word, processLanes_row hs hl hc, advance_getD_succ (hlen ▸ hw), hwin w (by omega), Nat.cast_succ,
      add_sub_add_right_eq_sub]

/-- Settles O45: reset starts the idle invariant (`winIdle_of_fresh`), `INGEST` turns it into the window of the call
(`winConv_windowOf`), and `ADVANCE` restores it for the next (`winIdle_processLanes`). -/
theorem windowHoldsTheMostRecentBlocks : Obligations.WindowHoldsTheMostRecentBlocks := by
  refine ⟨fun s c x => winIdle_of_fresh, fun s blocks c x k ⟨⟨hf, hb⟩, hl, hs⟩ hc hidle hx => ?_⟩
  have hwin := winConv_windowOf hs hc hidle hx
  exact ⟨hwin, _, execProcess_runs hf hb hl hs, winIdle_processLanes hs hl hc hwin⟩

end Sys2Proof.Proofs

/-! ## Convolution: accumulate and correct, its laws, its extremes, and the phase pair -/

namespace Sys2Proof.Proofs

open Sys2Proof.Machine

/-! ### Accumulate and correct -/

/-- A tap under a one-bit is counted twice and taken away once, under a zero-bit only taken away (42_convolution.md R105). -/
theorem sgn_mul_eq (b : Bool) (v : Int) : sgn b * v = 2 * (if b = true then v else 0) - v := by
  cases b with
  | true => simp only [sgn_true, if_true]; omega
  | false => simp

/-- Settles O33: each term of the sum is corrected (`sgn_mul_eq`), and the terms are added up. -/
theorem accumulateAndCorrect : Obligations.AccumulateAndCorrect := by
  intro n row t
  rw [conv_eq_sum, Finset.sum_filter, Finset.mul_sum, ← Finset.sum_sub_distrib]
  exact Finset.sum_congr rfl fun a _ => sgn_mul_eq (win row a) (memRead t a)

/-! ### Partial sums -/

/-- Settles O34: the signed taps stay within the mass of the table (`abs_sum_taps_le`), and `CoeffOK` bounds the scaled
mass (`Cfg.mass_le`). -/
theorem partialSumsFitTheAccumulator : Obligations.PartialSumsFitTheAccumulator := by
  intro cfg p row ages hages
  have hsum := abs_sum_taps_le row (cfg.table_length p ▸ hages)
  have hmass : ((tableMass (cfg.table p) * 2 ^ cfg.shift : Nat) : Int) ≤ 2 ^ 31 - 1 := by
    have := cfg.mass_le p
    omega
  push_cast at hmass
  exact ⟨hsum, (mul_le_mul_of_nonneg_right hsum (by positivity)).trans hmass⟩

/-! ### The laws of the convolution -/

theorem win_complement {row : List Word} {a : Nat} (h : a < 32 * row.length) :
    win (row.map fun x => ~~~x) a = !win row a := by
  have hword : a / 32 < row.length := by omega
  have hbit : 31 - a % 32 < 32 := by omega
  simp [win, blockBit, hword, hbit]

theorem conv_complement {n : Nat} {row : List Word} (h : n ≤ 32 * row.length) (t : List Int) :
    conv n (row.map fun x => ~~~x) t = -conv n row t := by
  rw [conv_eq_sum, conv_eq_sum, ← Finset.sum_neg_distrib]
  refine Finset.sum_congr rfl fun a ha => ?_
  rw [win_complement ((Finset.mem_range.mp ha).trans_le h), sgn_not, neg_mul]

/-- The correction leaves an even number (42_convolution.md R106 (b)). -/
theorem two_dvd_conv_sub_sum (n : Nat) (row : List Word) (t : List Int) :
    (2 : Int) ∣ conv n row t - ∑ a ∈ Finset.range n, memRead t a := by
  rw [accumulateAndCorrect n row t]
  omega

/-- Two windows that differ at one age have convolutions that differ by the tap of this age alone. -/
theorem conv_sub_conv {n a : Nat} {row row' : List Word} (ha : a < n) (h : ∀ e < n, e ≠ a → win row' e = win row e)
    (t : List Int) : conv n row' t - conv n row t = (sgn (win row' a) - sgn (win row a)) * memRead t a := by
  rw [conv_eq_sum, conv_eq_sum, ← Finset.sum_sub_distrib, sub_mul]
  refine Finset.sum_eq_single_of_mem a (Finset.mem_range.mpr ha) fun e he hne => ?_
  rw [h e (Finset.mem_range.mp he) hne, sub_self]

theorem memRead_zipWith_add {t u : List Int} (h : t.length = u.length) (a : Nat) :
    memRead (List.zipWith (· + ·) t u) a = memRead t a + memRead u a := by
  by_cases ha : a < t.length
  · simp [memRead, ha, h ▸ ha]
  · simp [memRead, Nat.le_of_not_lt ha, h ▸ Nat.le_of_not_lt ha]

@[simp] theorem memRead_map_neg (t : List Int) (a : Nat) : memRead (t.map fun v => -v) a = -memRead t a :=
  List.getD_map t 0 fun v => -v

theorem conv_zipWith_add {t u : List Int} (h : t.length = u.length) (n : Nat) (row : List Word) :
    conv n row (List.zipWith (· + ·) t u) = conv n row t + conv n row u := by
  simp only [conv_eq_sum, memRead_zipWith_add h, mul_add, Finset.sum_add_distrib]

theorem conv_map_neg (n : Nat) (row : List Word) (t : List Int) : conv n row (t.map fun v => -v) = -conv n row t := by
  simp only [conv_eq_sum, memRead_map_neg, mul_neg, Finset.sum_neg_distrib]

/-- Settles O35: complement (`conv_complement`), parity (`two_dvd_conv_sub_sum`), one flipped bit, whose sign rises by 2
(`conv_sub_conv`), and linearity in the table (`conv_zipWith_add`, `conv_map_neg`). -/
theorem convolutionLaws : Obligations.ConvolutionLaws := by
  refine ⟨fun n row t h => conv_complement h t, two_dvd_conv_sub_sum, fun n row row' t a ha hsame h0 h1 => ?_,
    fun n row t u h => ⟨conv_zipWith_add h n row, conv_map_neg n row t⟩⟩
  have hdiff := conv_sub_conv ha hsame t
  rw [h0, h1, sgn_true, sgn_false, sub_neg_eq_add, one_add_one_eq_two] at hdiff
  omega

/-! ### The extremes -/

/-- A signed tap reaches its magnitude exactly when the bit has the tap's sign (42_convolution.md R107). -/
theorem sgn_mul_eq_abs_iff (b : Bool) (v : Int) : sgn b * v = |v| ↔ (v ≠ 0 → (b = true ↔ 0 < v)) := by
  cases b with
  | true =>
    simp only [sgn_true, one_mul, eq_comm (b := |v|), abs_eq_self, true_iff]
    omega
  | false =>
    simp only [sgn_false, neg_one_mul, eq_comm (b := |v|), abs_eq_neg_self, Bool.false_eq_true, false_iff]
    omega

theorem sgn_mul_le_abs (b : Bool) (v : Int) : sgn b * v ≤ |v| := abs_sgn_mul b v ▸ le_abs_self _

/-- No term exceeds its magnitude, so the sum is the mass exactly when every term is at its magnitude. -/
theorem conv_eq_tableMass_iff (t : List Int) (row : List Word) : conv t.length row t = tableMass t ↔
    ∀ a < t.length, memRead t a ≠ 0 → (win row a = true ↔ 0 < memRead t a) := by
  rw [conv_eq_sum, tableMass_eq_sum, Finset.sum_eq_sum_iff_of_le fun a _ => sgn_mul_le_abs (win row a) (memRead t a)]
  simp only [Finset.mem_range, sgn_mul_eq_abs_iff]

@[simp] theorem tableMass_map_neg (t : List Int) : tableMass (t.map fun v => -v) = tableMass t := by
  simp [tableMass, Function.comp_def]

/-- The minimum over a table is the maximum over its negation. -/
theorem conv_eq_neg_tableMass_iff (t : List Int) (row : List Word) : conv t.length row t = -(tableMass t : Int) ↔
    ∀ a < t.length, memRead t a ≠ 0 → (win row a = true ↔ memRead t a < 0) := by
  have h := conv_eq_tableMass_iff (t.map fun v => -v) row
  rw [List.length_map, conv_map_neg, tableMass_map_neg, neg_eq_iff_eq_neg] at h
  simpa using h

/-- Settles O36: the maximum (`conv_eq_tableMass_iff`) and the minimum (`conv_eq_neg_tableMass_iff`); a tap that is neither
negative nor 0 is positive, so all ones meet the condition of the first and all zeros that of the second. -/
theorem convolutionExtremes : Obligations.ConvolutionExtremes := by
  intro t row
  refine ⟨conv_eq_tableMass_iff t row, conv_eq_neg_tableMass_iff t row, fun hpos => ⟨fun hones => ?_, fun hzeros => ?_⟩⟩
  · exact (conv_eq_tableMass_iff t row).mpr fun a ha hne =>
      iff_of_true (hones a ha) (lt_of_le_of_ne (hpos a ha) hne.symm)
  · exact (conv_eq_neg_tableMass_iff t row).mpr fun a ha _ =>
      iff_of_false (by simp [hzeros a ha]) (hpos a ha).not_gt

/-! ### The phase pair -/

/-- The window is the padded batch beside the active taps (00_scope.md R8). -/
theorem n_eq_pad_add_nact (cfg : Cfg) : cfg.n = cfg.pad + cfg.nact := by
  obtain ⟨-, -, -, -, hpad, hnact, -⟩ := cfg.ok
  omega

/-- A table that is 0 on the oldest batch reads the newest `nact` bits (40_coefficient_table.md R82, R83). -/
theorem conv_eq_newest {n nact : Nat} {t g : List Int} (hn : nact ≤ n) (hzero : ∀ a < n, nact ≤ a → memRead t a = 0)
    (htap : ∀ i < nact, memRead t i = memRead g i) (row : List Word) :
    conv n row t = ∑ i ∈ Finset.range nact, sgn (win row i) * memRead g i := by
  rw [conv_eq_sum]
  calc ∑ a ∈ Finset.range n, sgn (win row a) * memRead t a
      = ∑ i ∈ Finset.range nact, sgn (win row i) * memRead t i := by
        refine (Finset.sum_subset (Finset.range_subset_range.mpr hn) fun a ha hout => ?_).symm
        rw [hzero a (Finset.mem_range.mp ha) (by simpa using hout), mul_zero]
    _ = ∑ i ∈ Finset.range nact, sgn (win row i) * memRead g i :=
        Finset.sum_congr rfl fun i hi => by rw [htap i (Finset.mem_range.mp hi)]

/-- A table that is 0 on the newest batch reads the bits `pad` positions older (40_coefficient_table.md R82, R83). -/
theorem conv_eq_shifted {pad nact : Nat} {t g : List Int} (hzero : ∀ a < pad, memRead t a = 0)
    (htap : ∀ i < nact, memRead t (i + pad) = memRead g i) (row : List Word) :
    conv (pad + nact) row t = ∑ i ∈ Finset.range nact, sgn (win row (i + pad)) * memRead g i := by
  have hnewest : ∑ a ∈ Finset.range pad, sgn (win row a) * memRead t a = 0 :=
    Finset.sum_eq_zero fun a ha => by rw [hzero a (Finset.mem_range.mp ha), mul_zero]
  rw [conv_eq_sum, Finset.sum_range_add, hnewest, zero_add]
  refine Finset.sum_congr rfl fun i hi => ?_
  rw [Nat.add_comm pad i, htap i (Finset.mem_range.mp hi)]

/-- Settles O38: `TB` reads the newest stretch (`conv_eq_newest`) and `TA` the one 16 bits older (`conv_eq_shifted`). -/
theorem phasePairConvolutions : Obligations.PhasePairConvolutions := by
  rintro cfg g row ⟨hta, htb⟩ ⟨-, hpair⟩
  have hn := n_eq_pad_add_nact cfg
  constructor
  · exact conv_eq_newest (by omega) (fun a ha h => htb a ha (by omega)) (fun i hi => (hpair i hi).1) row
  · rw [hn, ← cfg.pad_eq]
    exact conv_eq_shifted hta (fun i hi => (hpair i hi).2) row

end Sys2Proof.Proofs

/-! ## Decimator: the commands, the samples of a call, channels and slots, streams, silence and the impulse -/

namespace Sys2Proof.Proofs

open Sys2Proof.Machine

/-! ### NOP, INIT and RSVD -/

/-- Settles O8: `NOP` is a test of `fault` that answers the same state either way (`execNop_eq`). -/
theorem nopHasNoEffect : Obligations.NopHasNoEffect := ⟨rfl, execNop_eq⟩

/-- Settles O9: one equation for each mode: unbound, ready and faulted. -/
theorem initBindsTheTablesOnce : Obligations.InitBindsTheTablesOnce :=
  ⟨rfl, fun _ => ⟨execInit_binds, execInit_reinit, exec_faulted .init⟩⟩

/-- Settles O10: the code by `decode_code`, then one equation for each value of `fault`; neither asks for `bound`. -/
theorem rsvdFaultsIllegalCommand : Obligations.RsvdFaultsIllegalCommand := by
  intro data
  obtain ⟨-, -, -, hcode⟩ := decode_code data
  exact ⟨hcode, fun _ => ⟨execRsvd_illegal, exec_faulted .rsvd⟩⟩

/-! ### Every input is answered -/

/-- In a state with the shape of R21 every command answers: a `PROCESS` asks for no history word that does not exist. -/
theorem exec_answers {s : State} (hs : s.Shaped) (i : Instr) : ∃ t, exec i s = .next t := by
  cases hf : s.fault with
  | true => exact ⟨s, exec_faulted i hf⟩
  | false =>
    cases i with
    | nop => exact ⟨s, execNop_eq s⟩
    | init =>
      cases hb : s.bound with
      | false => exact ⟨_, execInit_binds hf hb⟩
      | true => exact ⟨_, execInit_reinit hf hb⟩
    | process blocks =>
      cases hb : s.bound with
      | false => exact ⟨_, execProcess_uninit hf hb⟩
      | true =>
        by_cases hl : blocks.length = s.cfg.nch
        · exact ⟨_, execProcess_runs hf hb hl hs⟩
        · exact ⟨_, execProcess_badShape hf hb hl⟩
    | rsvd => exact ⟨_, execRsvd_illegal hf⟩

theorem step_idle {s : State} (h : s.port = []) : step s = .next s := by
  simp only [step, nextInput, h, idle_eq]

theorem step_reset {s : State} {rest : List HostInput} (h : s.port = .reset :: rest) :
    step s = .next (assertReset { s with port := rest }) := by
  simp only [step, nextInput, h]

/-- Settles O31: of the invariant a step needs the shape of the history alone, and only a command needs it
(`exec_answers`). -/
theorem everyInputIsAnswered : Obligations.EveryInputIsAnswered := by
  rintro s ⟨hs, -⟩
  cases hp : s.port with
  | nil => exact ⟨s, step_idle hp⟩
  | cons input rest =>
    cases input with
    | reset => exact ⟨_, step_reset hp⟩
    | command tr =>
      rw [stepRunsThePresentedCommand s tr rest hp]
      exact exec_answers (s := { s with port := rest }) hs (decode tr)

/-! ### SCALE -/

/-- `SCALE` is the left shift of its rule (43_decimator.md R121). -/
theorem scale_eq_shiftLeft (shift : Nat) (acc : Int) : scale shift acc = BitVec.ofInt 32 acc <<< shift := by
  have hpow : BitVec.ofInt 32 ((2 ^ shift : Nat) : Int) = BitVec.twoPow 32 shift := by
    rw [BitVec.ofInt_natCast, ← BitVec.toNat_inj, BitVec.toNat_ofNat, BitVec.toNat_twoPow]
  push_cast at hpow
  rw [scale, BitVec.ofInt_mul, hpow, BitVec.mul_twoPow_eq_shiftLeft]

/-- Settles O37: no bit is lost at the high end (`scale_conv_toInt`), and a left shift brings in zeros at the low end
(`scale_eq_shiftLeft`). -/
theorem scaleCorrectionIsExact : Obligations.ScaleCorrectionIsExact := by
  intro cfg p row
  refine ⟨scale_conv_toInt cfg p row, fun b hb => ?_⟩
  rw [scale_eq_shiftLeft, BitVec.getLsbD_shiftLeft, decide_eq_true hb]
  simp

/-! ### What a call delivers -/

/-- The array that `processLanes` appends (43_decimator.md R120). -/
def delivered (blocks : List Word) (s : State) : Samples where
  out0 := (runLanes s.cfg s.hist blocks).map LaneResult.sample0
  out1 := (runLanes s.cfg s.hist blocks).map LaneResult.sample1

/-- A `PROCESS` that can run runs in one way only: every lane, one array delivered. -/
theorem processesTo_iff {blocks : List Word} {s t : State} {r : Samples} (h : CanProcess blocks s) :
    ProcessesTo blocks s t r ↔ t = processLanes blocks s ∧ r = delivered blocks s := by
  obtain ⟨⟨hf, hb⟩, hl, hs⟩ := h
  have hexec : exec (.process blocks) s = .next (processLanes blocks s) := execProcess_runs hf hb hl hs
  have hres : (processLanes blocks s).results = s.results ++ [delivered blocks s] := processLanes_results s blocks
  rw [ProcessesTo, hexec, Host.Outcome.next.injEq]
  constructor
  · rintro ⟨rfl, hr⟩
    exact ⟨rfl, (List.singleton_inj.mp (List.append_cancel_left (hres.symm.trans hr))).symm⟩
  · rintro ⟨rfl, rfl⟩
    exact ⟨rfl, hres⟩

theorem processesTo_processLanes {blocks : List Word} {s : State} (h : CanProcess blocks s) :
    ProcessesTo blocks s (processLanes blocks s) (delivered blocks s) :=
  (processesTo_iff h).mpr ⟨rfl, rfl⟩

theorem delivered_slot_length {blocks : List Word} {s : State} (hs : s.Shaped) (hl : blocks.length = s.cfg.nch)
    (p : Phase) : ((delivered blocks s).slot p).length = s.cfg.nch := by
  rw [delivered, processLanes_slot, List.length_map, runLanes_length (hl.trans hs.1.symm), hs.1]

/-- The sample of a channel is the scaled convolution of its window (43_decimator.md R119). -/
theorem delivered_at {blocks : List Word} {s : State} (hs : s.Shaped) (hl : blocks.length = s.cfg.nch) {c : Nat}
    (hc : c < s.cfg.nch) (p : Phase) :
    (delivered blocks s).at p c = scale s.cfg.shift (conv s.cfg.n (windowOf s blocks c) (s.cfg.table p)) := by
  have hlen : blocks.length = s.hist.length := hl.trans hs.1.symm
  have hrows : c < s.hist.length := hs.1 ▸ hc
  rw [Samples.at, delivered, processLanes_slot,
    List.getD_eq_getElem _ _ (by rwa [List.length_map, runLanes_length hlen]), List.getElem_map, runLanes_getElem hrows hlen]
  exact lane_sample s.cfg _ _ p

/-- The sample as a number: no overflow (43_decimator.md R121). -/
theorem delivered_at_toInt {blocks : List Word} {s : State} (hs : s.Shaped) (hl : blocks.length = s.cfg.nch) {c : Nat}
    (hc : c < s.cfg.nch) (p : Phase) :
    ((delivered blocks s).at p c).toInt = 2 ^ s.cfg.shift * conv s.cfg.n (windowOf s blocks c) (s.cfg.table p) := by
  rw [delivered_at hs hl hc, scale_conv_toInt, mul_comm]

/-- Word 0 of the window is the block, every other word the history's (41_history_window.md R91). -/
theorem windowOf_getD {s : State} (hs : s.Shaped) {c : Nat} (hc : c < s.cfg.nch) (blocks : List Word) (w : Nat) :
    (windowOf s blocks c).getD w 0 = if w = 0 then blocks.getD c 0 else s.word c w := by
  cases w with
  | zero => exact ingest_getD_zero (shaped_row_length_pos hs hc) _
  | succ w => exact ingest_getD_succ _ _ w

theorem windowOf_length {s : State} (hs : s.Shaped) {c : Nat} (hc : c < s.cfg.nch) (blocks : List Word) :
    (windowOf s blocks c).length = s.cfg.nw := by
  rw [windowOf, ingest_length, shaped_row_length hs hc]

theorem processLanes_word_zero {s : State} {blocks : List Word} (hs : s.Shaped) (hl : blocks.length = s.cfg.nch) {c : Nat}
    (hc : c < s.cfg.nch) : (processLanes blocks s).word c 0 = blocks.getD c 0 := by
  rw [State.word, processLanes_row hs hl hc, advance_getD_zero, windowOf_getD hs hc, if_pos rfl]

theorem processLanes_word_succ {s : State} {blocks : List Word} (hs : s.Shaped) (hl : blocks.length = s.cfg.nch) {c w : Nat}
    (hc : c < s.cfg.nch) (hw : w + 1 < s.cfg.nw) :
    (processLanes blocks s).word c (w + 1) = if w = 0 then blocks.getD c 0 else s.word c w := by
  rw [State.word, processLanes_row hs hl hc, advance_getD_succ (by rwa [windowOf_length hs hc]), windowOf_getD hs hc]

/-- Settles O14: the samples by `delivered_at_toInt`, with the window read word by word (`windowOf_getD`), and the history
by `processLanes_word_zero` and `processLanes_word_succ`; every other field is kept by definition. -/
theorem readyProcessRunsEveryLane : Obligations.ReadyProcessRunsEveryLane := by
  intro s blocks h
  have ⟨_, hl, hs⟩ := h
  obtain ⟨hexec, -⟩ := processesTo_processLanes h
  refine ⟨_, delivered blocks s, hexec, rfl, processLanes_shaped hs hl,
    fun p => ⟨delivered_slot_length hs hl p, fun c hc => ?_⟩,
    fun c hc => ⟨processLanes_word_zero hs hl hc, fun h1 => ?_, fun w h2 hw => ?_⟩⟩
  · rw [delivered_at_toInt hs hl hc, conv_eq_sum]
    simp only [win, windowOf_getD hs hc]
  · rw [processLanes_word_succ hs hl hc h1, if_pos rfl]
  · obtain ⟨w, rfl⟩ := Nat.exists_eq_add_of_le' (Nat.le_of_succ_le h2)
    rw [processLanes_word_succ hs hl hc hw, if_neg (by omega), Nat.add_sub_cancel]

/-! ### Where samples come from -/

/-- Only the transfer that presents a `PROCESS` decodes to it (30_encoding.md R62). -/
theorem eq_encode_of_decode_process {tr : Transfer} {blocks : List Word} (h : decode tr = .process blocks) :
    tr = encode (.process blocks) := by
  obtain ⟨cmd, data⟩ := tr
  obtain ⟨hnop, hinit, hprocess, hrsvd⟩ := decode_code data
  rcases code_cases cmd with rfl | rfl | rfl | rfl
  · cases hnop.symm.trans h
  · cases hinit.symm.trans h
  · cases hprocess.symm.trans h; rfl
  · cases hrsvd.symm.trans h

/-- Settles O22: of what a step can do, only the command at the head of the port can deliver, and of what a command can do,
only running the lanes. -/
theorem samplesComeOnlyFromAReadyProcess : Obligations.SamplesComeOnlyFromAReadyProcess := by
  intro s t h
  rcases step_next h with ⟨-, rfl⟩ | ⟨rest, -, rfl⟩ | ⟨tr, rest, hport, hexec⟩
  · exact .inl rfl
  · exact .inl (assertReset_results _)
  · rcases exec_next hexec with rfl | ⟨-, code, rfl, -⟩ | ⟨-, -, -, rfl⟩ | ⟨blocks, hf, hi, hb, hl, hs, rfl⟩
    · exact .inl rfl
    · exact .inl (raiseFault_results _ code)
    · exact .inl rfl
    · rw [eq_encode_of_decode_process hi] at hport
      exact .inr ⟨blocks, rest, delivered blocks s, hport, ⟨⟨hf, hb⟩, hl, hs⟩, processLanes_results _ blocks,
        delivered_slot_length hs hl⟩

/-! ### Channels and slots -/

/-- A channel that does not exist has no sample: the default value 0 is read. -/
theorem delivered_at_of_ge {blocks : List Word} {s : State} (hs : s.Shaped) (hl : blocks.length = s.cfg.nch) {c : Nat}
    (hc : s.cfg.nch ≤ c) (p : Phase) : (delivered blocks s).at p c = 0 :=
  List.getD_eq_default _ _ (by rwa [delivered_slot_length hs hl])

/-- A channel that does not exist has no history row. -/
theorem shaped_row_of_ge {s : State} (hs : s.Shaped) {c : Nat} (hc : s.cfg.nch ≤ c) : s.hist.getD c [] = [] :=
  List.getD_eq_default _ _ (by rwa [hs.1])

/-- Settles O41: a channel reads and writes through its window only, which is its block and its history row; a faulted block
ignores the command (`exec_faulted`). -/
theorem channelsAreIndependent : Obligations.ChannelsAreIndependent := by
  refine ⟨fun s blocks hf => exec_faulted _ hf, ?_⟩
  intro s s' t t' blocks blocks' r r' c hcfg h h' hrow hblock hrun hrun'
  have ⟨_, hl, hs⟩ := h
  have ⟨_, hl', hs'⟩ := h'
  obtain ⟨rfl, rfl⟩ := (processesTo_iff h).mp hrun
  obtain ⟨rfl, rfl⟩ := (processesTo_iff h').mp hrun'
  have hwindow : windowOf s' blocks' c = windowOf s blocks c := by rw [windowOf, windowOf, hrow, hblock]
  rcases lt_or_ge c s.cfg.nch with hc | hc
  · have hc' : c < s'.cfg.nch := hcfg ▸ hc
    refine ⟨?_, fun p => ?_⟩
    · rw [processLanes_row hs' hl' hc', processLanes_row hs hl hc, hwindow]
    · rw [delivered_at hs' hl' hc', delivered_at hs hl hc, hwindow, hcfg]
  · have hc' : s'.cfg.nch ≤ c := hcfg ▸ hc
    refine ⟨?_, fun p => ?_⟩
    · rw [shaped_row_of_ge (processLanes_shaped hs' hl') hc', shaped_row_of_ge (processLanes_shaped hs hl) hc]
    · rw [delivered_at_of_ge hs' hl' hc', delivered_at_of_ge hs hl hc]

/-- The convolution does not see a bit under a tap that is 0. -/
theorem conv_congr {n : Nat} {row row' : List Word} {t : List Int}
    (h : ∀ a < n, memRead t a = 0 ∨ win row' a = win row a) : conv n row' t = conv n row t := by
  rw [conv_eq_sum, conv_eq_sum]
  refine Finset.sum_congr rfl fun a ha => ?_
  rcases h a (Finset.mem_range.mp ha) with hzero | hbit
  · rw [hzero, mul_zero, mul_zero]
  · rw [hbit]

/-- Settles O43: the taps over the padded batch of a slot are 0 (`PadZero`), so the convolution does not see its bits
(`conv_congr`). -/
theorem eachSlotIsBlindToItsPaddedBatch : Obligations.EachSlotIsBlindToItsPaddedBatch := by
  rintro s s' t t' blocks blocks' r r' c hcfg ⟨hta, htb⟩ h h' hc hrun hrun'
  have ⟨_, hl, hs⟩ := h
  have ⟨_, hl', hs'⟩ := h'
  obtain ⟨-, rfl⟩ := (processesTo_iff h).mp hrun
  obtain ⟨-, rfl⟩ := (processesTo_iff h').mp hrun'
  have hpad := s.cfg.pad_eq
  have hslot (p : Phase) (hblind : ∀ a < s.cfg.n, memRead (s.cfg.table p) a = 0 ∨
      win (windowOf s' blocks' c) a = win (windowOf s blocks c) a) :
      (delivered blocks' s').at p c = (delivered blocks s).at p c := by
    rw [delivered_at hs' hl' (hcfg ▸ hc), delivered_at hs hl hc, hcfg, conv_congr hblind]
  refine ⟨fun hsame => hslot .a fun a ha => ?_, fun hsame => hslot .b fun a ha => ?_⟩
  · rcases lt_or_ge a 16 with hnew | hold
    · exact .inl (hta a (by omega))
    · exact .inr (hsame a hold ha)
  · rcases lt_or_ge (a + 16) s.cfg.n with hnew | hold
    · exact .inr (hsame a hnew)
    · exact .inl (htb a ha (by omega))

/-! ### The samples over the stream -/

/-- The window of call `k` is the stream up to bit `32 k - 1`, read backwards (41_history_window.md R96). -/
theorem win_eq_streamBit {cfg : Cfg} {row : List Word} {x : BlockStream} {k : Int} (h : WinConv cfg.nw row x k) {a : Nat}
    (ha : a < cfg.n) : win row a = streamBit x (32 * k - 1 - a) := by
  obtain ⟨-, hage⟩ := windowIsASliceOfTheStream cfg.nw row x k h
  exact hage a (cfg.n_eq ▸ ha)

/-- Settles O46: the window of the call is a slice of the stream (`winConv_windowOf`, `win_eq_streamBit`), the sample is its
convolution (`delivered_at_toInt`), and `ADVANCE` restores the idle invariant (`winIdle_processLanes`). -/
theorem samplesFollowTheStream : Obligations.SamplesFollowTheStream := by
  intro s blocks c x k h hc hidle hx
  have ⟨_, hl, hs⟩ := h
  have hwin := winConv_windowOf hs hc hidle hx
  refine ⟨_, _, processesTo_processLanes h, winIdle_processLanes hs hl hc hwin, fun p => ?_⟩
  rw [delivered_at_toInt hs hl hc, conv_eq_sum]
  congr 1
  refine Finset.sum_congr rfl fun a ha => ?_
  rw [win_eq_streamBit hwin (Finset.mem_range.mp ha), mul_comm]

/-! ### The decimated stream -/

/-- The convolutions of call `k` on a phase pair are two outputs of the full-rate filter, 16 bits apart
(43_decimator.md R123). -/
theorem conv_eq_fullRate {cfg : Cfg} {g : List Int} {row : List Word} {x : BlockStream} {k : Int}
    (hpad : PadZero cfg.toParams) (hpair : PhasePair cfg.toParams g) (hwin : WinConv cfg.nw row x k) :
    conv cfg.n row cfg.ta = fullRate g x (32 * k - 17) ∧ conv cfg.n row cfg.tb = fullRate g x (32 * k - 1) := by
  obtain ⟨hb, ha⟩ := phasePairConvolutions cfg g row hpad hpair
  obtain ⟨hg, -⟩ := hpair
  have hn := n_eq_pad_add_nact cfg
  have hp := cfg.pad_eq
  rw [ha, hb, fullRate, fullRate, hg]
  refine ⟨Finset.sum_congr rfl fun i hi => ?_, Finset.sum_congr rfl fun i hi => ?_⟩
  · have hi := Finset.mem_range.mp hi
    have htime : 32 * k - 1 - (i + 16 : Nat) = 32 * k - 17 - i := by omega
    rw [win_eq_streamBit hwin (by omega), htime, mul_comm, memRead]
  · have hi := Finset.mem_range.mp hi
    rw [win_eq_streamBit hwin (by omega), mul_comm, memRead]

/-- A step that takes a `PROCESS` that can run off the port runs every lane. -/
theorem step_process {s : State} {blocks : List Word} {rest : List HostInput} (h : CanProcess blocks s)
    (hport : s.port = .command (encode (.process blocks)) :: rest) :
    step s = .next (processLanes blocks { s with port := rest }) := by
  obtain ⟨⟨hf, hb⟩, hl, hs⟩ := h
  rw [stepRunsThePresentedCommand s _ rest hport, decode_encode]
  exact execProcess_runs (s := { s with port := rest }) hf hb hl hs

theorem run_succ_of_step {M : Host.Core} {s t : M.State} (h : M.step s = .next t) (k : Nat) :
    M.run (k + 1) s = M.run k t := by
  rw [Host.Core.run, h]

theorem decimated_cons (c : Nat) (r : Samples) (results : List Samples) :
    decimated c (r :: results) = r.at .a c :: r.at .b c :: decimated c results := rfl

/-- The stream seen from one call later. -/
def afterCall (x : BlockStream) : BlockStream := fun j => x (j + 1)

theorem streamBit_afterCall (x : BlockStream) (m : Int) : streamBit (afterCall x) m = streamBit x (m + 32) := by
  have hblock : (m + 32) / 32 = m / 32 + 1 := by omega
  have hbit : (m + 32) % 32 = m % 32 := by omega
  rw [streamBit, streamBit, hblock, hbit, afterCall]

theorem fullRate_afterCall (g : List Int) (x : BlockStream) (m : Int) :
    fullRate g (afterCall x) m = fullRate g x (m + 32) := by
  refine Finset.sum_congr rfl fun i _ => ?_
  rw [streamBit_afterCall, sub_add_eq_add_sub]

theorem winIdle_afterCall {s : State} {c : Nat} {x : BlockStream} {k : Int} :
    WinIdle s c (afterCall x) k ↔ WinIdle s c x (k + 1) := by
  have hage (w : Nat) : k + 1 - w + 1 = k + 1 + 1 - w := by omega
  simp only [WinIdle, afterCall, hage]

theorem inOrder_cons {c : Nat} {x : BlockStream} {blocks : List Word} {calls : List (List Word)}
    (h : InOrder c x (blocks :: calls)) : blocks.getD c 0 = x 1 ∧ InOrder c (afterCall x) calls := by
  refine ⟨h 0 (Nat.succ_pos _), fun k hk => ?_⟩
  have hnext := h (k + 1) (Nat.succ_lt_succ hk)
  rwa [List.getD_cons_succ, Nat.cast_succ] at hnext

/-- Settles O47, by induction on the calls: the first call delivers samples 0 and 1 (`conv_eq_fullRate`), and the others
deliver theirs over the stream seen from one call later (`fullRate_afterCall`). -/
theorem decimatedStreamIsEverySixteenthFilterOutput : Obligations.DecimatedStreamIsEverySixteenthFilterOutput := by
  intro s g calls rest c x hpad hpair hready hs hc hidle hlen horder hport
  induction calls generalizing s x with
  | nil => exact ⟨s, [], rfl, (List.append_nil _).symm, hport, hready, hidle, rfl, by simp⟩
  | cons blocks calls ih =>
    obtain ⟨hl, hlen⟩ := List.forall_mem_cons.mp hlen
    obtain ⟨hx, horder⟩ := inOrder_cons horder
    have hwin := winConv_windowOf (k := 1) hs hc (by simpa using hidle) hx
    obtain ⟨hslotA, hslotB⟩ := conv_eq_fullRate hpad hpair hwin
    obtain ⟨t, new, hrun, hres, hport', hready', hidle', hcount, hsamples⟩ :=
      ih (processLanes blocks { s with port := calls.map (fun blocks => .command (encode (.process blocks))) ++ rest })
        (afterCall x) hpad hpair hready (processLanes_shaped hs hl) hc
        (winIdle_afterCall.mpr (winIdle_processLanes (k := 1) hs hl hc hwin)) hlen horder rfl
    refine ⟨t, delivered blocks s :: new, ?_, ?_, hport', hready', ?_, ?_, fun j hj => ?_⟩
    · exact (run_succ_of_step (M := core) (step_process ⟨hready, hl, hs⟩ hport) _).trans hrun
    · rw [hres, processLanes_results, List.append_assoc]; rfl
    · simpa using winIdle_afterCall.mp hidle'
    · simp only [decimated_cons, List.length_cons, hcount]; omega
    · rw [decimated_cons]
      match j with
      | 0 => exact (delivered_at_toInt hs hl hc .a).trans (congrArg _ hslotA)
      | 1 => exact (delivered_at_toInt hs hl hc .b).trans (congrArg _ hslotB)
      | j + 2 =>
        have htime : (16 * (j + 2 : Nat) + 15 : Int) = 16 * j + 15 + 32 := by omega
        rw [htime, ← fullRate_afterCall]
        exact hsamples j (by rw [List.length_cons] at hj; omega)

/-! ### Silence -/

/-- The bits of `0x55555555` alternate, bit 0 a one (43_decimator.md R128). -/
theorem sgn_blockBit_silent : ∀ b < 32, sgn (blockBit 0x55555555#32 b) = (-1) ^ b := by decide

theorem sgn_win_silent {row : List Word} {a : Nat} (h : row.getD (a / 32) 0 = 0x55555555#32) :
    sgn (win row a) = (-1) ^ (a + 1) := by
  rw [win, h, sgn_blockBit_silent _ (by omega)]
  refine neg_one_pow_congr ?_
  rw [Nat.even_iff, Nat.even_iff]
  omega

/-- On a window full of `0x55555555` the convolution is the alternating sum of the table (43_decimator.md R128). -/
theorem conv_silent {cfg : Cfg} {row : List Word} (h : ∀ w < cfg.nw, row.getD w 0 = 0x55555555#32) (t : List Int) :
    conv cfg.n row t = silence cfg.n t := by
  have hn := cfg.n_eq
  rw [conv_eq_sum, silence]
  refine Finset.sum_congr rfl fun a ha => ?_
  rw [sgn_win_silent (h (a / 32) (by have := Finset.mem_range.mp ha; omega))]

/-- A window full of `0x55555555`. -/
def silentRow (cfg : Cfg) : List Word := List.replicate cfg.nw 0x55555555#32

theorem silentRow_getD {cfg : Cfg} {w : Nat} (hw : w < cfg.nw) : (silentRow cfg).getD w 0 = 0x55555555#32 :=
  List.getD_replicate _ hw

theorem conv_silentRow (cfg : Cfg) (t : List Int) : conv cfg.n (silentRow cfg) t = silence cfg.n t :=
  conv_silent (fun _ => silentRow_getD) t

/-- The two stretches of a phase pair are an even number of bits apart, so silence looks the same on both. -/
theorem silence_phasePair {cfg : Cfg} {g : List Int} (hpad : PadZero cfg.toParams) (hpair : PhasePair cfg.toParams g) :
    silence cfg.n cfg.ta = silence cfg.n cfg.tb := by
  obtain ⟨hb, ha⟩ := phasePairConvolutions cfg g (silentRow cfg) hpad hpair
  have hn := n_eq_pad_add_nact cfg
  have hp := cfg.pad_eq
  have hnw := cfg.n_eq
  rw [← conv_silentRow, ← conv_silentRow, ha, hb]
  refine Finset.sum_congr rfl fun i hi => ?_
  have hi := Finset.mem_range.mp hi
  have hparity : (-1 : Int) ^ (i + 16 + 1) = (-1) ^ (i + 1) :=
    neg_one_pow_congr (by rw [Nat.even_iff, Nat.even_iff]; omega)
  rw [sgn_win_silent (silentRow_getD (by omega)), sgn_win_silent (silentRow_getD (by omega)), hparity]

/-- Settles O48: the window of the call is full of filler, so the samples are the baseline (`conv_silent`), and every word
that `ADVANCE` leaves is one of its words. -/
theorem silenceGivesTheBaseline : Obligations.SilenceGivesTheBaseline := by
  refine ⟨fun s blocks c h hc hblock hwords => ?_, fun cfg g => silence_phasePair⟩
  have ⟨_, hl, hs⟩ := h
  have hwindow : ∀ w < s.cfg.nw, (if w = 0 then blocks.getD c 0 else s.word c w) = 0x55555555#32 := by
    intro w hw
    split
    · exact hblock
    · exact hwords w (by omega) hw
  refine ⟨_, _, processesTo_processLanes h, fun w hw => ?_, fun p => ?_⟩
  · cases w with
    | zero => rw [processLanes_word_zero hs hl hc, hblock]
    | succ w => rw [processLanes_word_succ hs hl hc hw, hwindow w (by omega)]
  · rw [delivered_at_toInt hs hl hc, conv_silent fun w hw => by rw [windowOf_getD hs hc, hwindow w hw]]

/-! ### The impulse -/

/-- `x` with bit `b` flipped. -/
theorem blockBit_flip (x : Word) {b i : Nat} (hi : i < 32) :
    blockBit (x ^^^ (1#32 <<< b)) i = (blockBit x i ^^ decide (b = i)) := by
  rw [blockBit, blockBit, BitVec.getLsbD_xor, ← BitVec.twoPow_eq, BitVec.getLsbD_twoPow]
  by_cases h : b = i
  · simp [h, hi]
  · simp [h]

/-- The sign of the impulse: a flipped filler bit rises at an odd place and falls at an even one (43_decimator.md R129). -/
theorem impulse_sign (b : Nat) : (if b % 2 = 1 then 1 else -1 : Int) = -(-1) ^ b := by
  split
  · rw [(Nat.odd_iff.mpr ‹_›).neg_one_pow, neg_neg]
  · rw [(Nat.even_iff.mpr (by omega)).neg_one_pow]

/-- On a window of filler with bit `b` of word `d` flipped the convolution is the baseline and twice the tap at the age of
that bit (43_decimator.md R129). -/
theorem conv_impulse {cfg : Cfg} {row : List Word} {d b : Nat} (hd : d < cfg.nw) (hb : b < 32)
    (hrow : ∀ w < cfg.nw, row.getD w 0 = if w = d then 0x55555555#32 ^^^ (1#32 <<< b) else 0x55555555#32) (t : List Int) :
    conv cfg.n row t =
      silence cfg.n t + (if b % 2 = 1 then 1 else -1) * 2 * memRead t (32 * d + 31 - b) := by
  have hn := cfg.n_eq
  have hsame : ∀ a < cfg.n, a ≠ 32 * d + 31 - b → win row a = win (silentRow cfg) a := by
    intro a ha hne
    have hw : a / 32 < cfg.nw := by omega
    rw [win, win, hrow _ hw, silentRow_getD hw]
    split
    · rw [blockBit_flip _ (by omega), decide_eq_false (by omega), Bool.xor_false]
    · rfl
  have hflip : sgn (win row (32 * d + 31 - b)) - sgn (win (silentRow cfg) (32 * d + 31 - b)) =
      (if b % 2 = 1 then 1 else -1) * 2 := by
    rw [win_block _ _ hb, win_block _ _ hb, hrow d hd, if_pos rfl, silentRow_getD hd, blockBit_flip _ hb, decide_eq_true rfl,
      Bool.xor_true, sgn_not, sgn_blockBit_silent b hb, impulse_sign]
    ring
  have hdiff := conv_sub_conv (by omega) hsame t
  rw [hflip, conv_silentRow] at hdiff
  omega

/-- Settles O49: while the flipped block is in the window it is word `k - 1` (`conv_impulse`); afterwards the window is
filler alone (`conv_silent`). -/
theorem impulseTracesTheTable : Obligations.ImpulseTracesTheTable := by
  intro s blocks c x b k h hc hb hx hk hidle hblock
  have ⟨_, hl, hs⟩ := h
  have hwin := winConv_windowOf hs hc hidle hblock
  refine ⟨_, _, processesTo_processLanes h, winIdle_processLanes hs hl hc hwin, fun p => ?_⟩
  rw [delivered_at_toInt hs hl hc]
  split
  · rw [conv_impulse (d := k - 1) (by omega) hb fun w hw => ?_]
    · ring
    · rw [hwin w hw, hx]
      exact if_congr (by omega) rfl rfl
  · rw [conv_silent fun w hw => ?_, add_zero]
    rw [hwin w hw, hx, if_neg (by omega)]

end Sys2Proof.Proofs

/-! ## Exceptions: the order of the fault conditions, fault entry, the fault state, the lifecycle modes -/

namespace Sys2Proof.Proofs

open Sys2Proof.Machine

/-! ### Which fault a command raises -/

/-- One command and one condition for each fault (60_exceptions.md R135), and `noFault` for none. -/
theorem firstFault_eq_some_iff {i : Instr} {s : State} {code : Cause} : firstFault i s = some code ↔
    (code = .uninitUse ∧ s.bound = false ∧ ∃ blocks, i = .process blocks) ∨
      (code = .reinit ∧ s.bound = true ∧ i = .init) ∨
      (code = .illegalCmd ∧ i = .rsvd) ∨
      (code = .badShape ∧ s.bound = true ∧ ∃ blocks, i = .process blocks ∧ blocks.length ≠ s.cfg.nch) := by
  cases i with
  | nop => simp [firstFault]
  | init => simp [firstFault, @eq_comm _ _ code, and_comm]
  | process blocks =>
    cases hb : s.bound with
    | false => simp [firstFault, hb, @eq_comm _ _ code]
    | true => simp [firstFault, hb, @eq_comm _ _ code, and_comm]
  | rsvd => simp [firstFault, @eq_comm _ _ code]

theorem firstFault_ne_noFault (i : Instr) (s : State) : firstFault i s ≠ some .noFault := by
  simp [firstFault_eq_some_iff]

/-- A running block enters the fault state with the first condition that holds (60_exceptions.md R143, R144). -/
theorem exec_firstFault {i : Instr} {s : State} {code : Cause} (hf : s.fault = false) (h : firstFault i s = some code) :
    exec i s = .next (raiseFault code s) := by
  rcases firstFault_eq_some_iff.mp h with ⟨rfl, hb, blocks, rfl⟩ | ⟨rfl, hb, rfl⟩ | ⟨rfl, rfl⟩ | ⟨rfl, hb, blocks, rfl, hl⟩
  · exact execProcess_uninit hf hb
  · exact execInit_reinit hf hb
  · exact execRsvd_illegal hf
  · exact execProcess_badShape hf hb hl

/-- Where no condition holds a command writes neither `fault` nor `cause`. -/
theorem exec_fault_cause_of_firstFault_none {i : Instr} {s t : State} (hnone : firstFault i s = none)
    (h : exec i s = .next t) : t.fault = s.fault ∧ t.cause = s.cause := by
  cases i with
  | nop =>
    obtain rfl := execNop_next h
    exact ⟨rfl, rfl⟩
  | init =>
    rcases execInit_next h with ⟨-, rfl⟩ | ⟨-, hb, -⟩ | ⟨-, -, rfl⟩
    · exact ⟨rfl, rfl⟩
    · simp [firstFault, hb] at hnone
    · exact ⟨rfl, rfl⟩
  | process blocks =>
    rcases execProcess_next h with ⟨-, rfl⟩ | ⟨-, hb, -⟩ | ⟨-, hb, hl, -⟩ | ⟨-, -, -, -, rfl⟩
    · exact ⟨rfl, rfl⟩
    · simp [firstFault, hb] at hnone
    · simp [firstFault, hb, hl] at hnone
    · exact ⟨processLanes_fault s blocks, processLanes_cause s blocks⟩
  | rsvd => simp [firstFault] at hnone

/-- A command that enters the fault state does so by the entry of R144, with the first condition that holds. -/
theorem exec_enters_fault {i : Instr} {s t : State} (hf : s.fault = false) (h : exec i s = .next t)
    (ht : t.fault = true) : ∃ code, firstFault i s = some code ∧ t = raiseFault code s := by
  cases hfirst : firstFault i s with
  | none =>
    obtain ⟨hkept, -⟩ := exec_fault_cause_of_firstFault_none hfirst h
    simp [hkept, hf] at ht
  | some code =>
    rw [exec_firstFault hf hfirst] at h
    injection h with h
    exact ⟨code, rfl, h.symm⟩

/-- Settles O13: a faulted block ignores the command (`exec_faulted`), a condition that holds decides (`exec_firstFault`),
and without one the two fields are kept (`exec_fault_cause_of_firstFault_none`). -/
theorem firstFaultConditionDecides : Obligations.FirstFaultConditionDecides := by
  refine fun i s => ⟨exec_faulted i, fun hf _ hfirst => exec_firstFault hf hfirst, fun hf hnone t h => ?_⟩
  obtain ⟨hfault, hcause⟩ := exec_fault_cause_of_firstFault_none hnone h
  exact ⟨hfault.trans hf, hcause⟩

/-- Settles O11: the first branch of a running `PROCESS`, whatever its operand. -/
theorem processBeforeInitFaults : Obligations.ProcessBeforeInitFaults := fun _ _ => execProcess_uninit

/-- Settles O12: the second branch of a running `PROCESS`. -/
theorem processOfWrongShapeFaults : Obligations.ProcessOfWrongShapeFaults :=
  fun _ _ ⟨hf, hb⟩ hl => execProcess_badShape hf hb hl

/-! ### Fault entry and the code it records -/

theorem code_eq_zero_iff (c : Cause) : c.code = 0#3 ↔ c = .noFault := by
  cases c <;> decide

theorem one_le_code_iff (c : Cause) : 1 ≤ c.code.toNat ↔ c ≠ .noFault := by
  cases c <;> decide

theorem raiseFault_status (code : Cause) (s : State) :
    (raiseFault code s).status = code.code ++ 1#1 ++ BitVec.ofBool s.bound := rfl

/-- Settles O17: the entry is `raiseFault` (`exec_enters_fault`), and no condition has the code 0
(`firstFault_ne_noFault`). -/
theorem faultEntryChangesNothingElse : Obligations.FaultEntryChangesNothingElse := by
  intro i s t hf h ht
  obtain ⟨code, hfirst, rfl⟩ := exec_enters_fault hf h ht
  have hcode : code ≠ .noFault := fun h0 => firstFault_ne_noFault i s (h0 ▸ hfirst)
  exact ⟨rfl, (one_le_code_iff code).mpr hcode, code_le_four code⟩

/-- The `STATUS` that each fault leaves, by its command and its condition (60_exceptions.md R135). -/
theorem status_of_fault {s : State} (hf : s.fault = false) :
    (∀ blocks, s.bound = false → ∃ t, exec (.process blocks) s = .next t ∧ t.status = 0b00110#5) ∧
      (s.bound = true → ∃ t, exec .init s = .next t ∧ t.status = 0b01011#5) ∧
      (∃ t, exec .rsvd s = .next t ∧ t.status = if s.bound then 0b01111#5 else 0b01110#5) ∧
      ∀ blocks, s.bound = true → blocks.length ≠ s.cfg.nch →
        ∃ t, exec (.process blocks) s = .next t ∧ t.status = 0b10011#5 := by
  refine ⟨fun blocks hb => ⟨_, execProcess_uninit hf hb, ?_⟩, fun hb => ⟨_, execInit_reinit hf hb, ?_⟩,
    ⟨_, execRsvd_illegal hf, ?_⟩, fun blocks hb hl => ⟨_, execProcess_badShape hf hb hl, ?_⟩⟩
  · rw [raiseFault_status, hb]; rfl
  · rw [raiseFault_status, hb]; rfl
  · rw [raiseFault_status]; cases s.bound <;> rfl
  · rw [raiseFault_status, hb]; rfl

/-- A command that enters the fault state raises one of the four faults under its condition, and `STATUS` shows the code. -/
theorem fault_of_exec {i : Instr} {s t : State} (hf : s.fault = false) (h : exec i s = .next t) (ht : t.fault = true) :
    (t.status.extractLsb' 2 3 = 1#3 ∧ s.bound = false ∧ ∃ blocks, i = .process blocks) ∨
      (t.status.extractLsb' 2 3 = 2#3 ∧ s.bound = true ∧ i = .init) ∨
      (t.status.extractLsb' 2 3 = 3#3 ∧ i = .rsvd) ∨
      (t.status.extractLsb' 2 3 = 4#3 ∧ s.bound = true ∧ ∃ blocks, i = .process blocks ∧ blocks.length ≠ s.cfg.nch) := by
  obtain ⟨code, hfirst, rfl⟩ := exec_enters_fault hf h ht
  rw [status_cause, raiseFault_cause]
  rcases firstFault_eq_some_iff.mp hfirst with ⟨rfl, hcond⟩ | ⟨rfl, hcond⟩ | ⟨rfl, hcond⟩ | ⟨rfl, hcond⟩
  · exact .inl ⟨rfl, hcond⟩
  · exact .inr (.inl ⟨rfl, hcond⟩)
  · exact .inr (.inr (.inl ⟨rfl, hcond⟩))
  · exact .inr (.inr (.inr ⟨rfl, hcond⟩))

/-- Where the flags agree `STATUS` shows code 0 exactly while there is no fault (60_exceptions.md R135). -/
theorem status_code_zero_iff {s : State} (h : FlagsAgree s) : s.status.extractLsb' 2 3 = 0#3 ↔ s.fault = false := by
  obtain ⟨hfault, -⟩ := h
  rw [status_cause, code_eq_zero_iff, ← Bool.not_eq_true, hfault, not_not]

/-- Settles O51: each fault leaves its `STATUS` (`status_of_fault`), a fault entry changes nothing else and is one of the
four (`fault_of_exec`), and code 0 stands for no fault (`status_code_zero_iff`). -/
theorem eachFaultRecordsItsCode : Obligations.EachFaultRecordsItsCode := by
  refine ⟨fun _ => status_of_fault, fun i s t hf h ht => ?_, fun _ => status_code_zero_iff⟩
  obtain ⟨hentry, -⟩ := faultEntryChangesNothingElse i s t hf h ht
  exact ⟨hentry, fault_of_exec hf h ht⟩

/-! ### The idle block and the fault state -/

/-- Settles O3: an empty port is the idle step. -/
theorem idleBlockKeepsItsState : Obligations.IdleBlockKeepsItsState := fun _ => step_idle

/-- Settles O18: every command starts with the test of `fault` (`exec_faulted`). -/
theorem faultStateIgnoresEveryCommand : Obligations.FaultStateIgnoresEveryCommand := fun i _ => exec_faulted i

/-- Settles O19: an idle step and an ignored command leave the state to the port's tail, and the reset input is the other
case. -/
theorem onlyResetLeavesTheFaultState : Obligations.OnlyResetLeavesTheFaultState := by
  intro s hf
  cases hp : s.port with
  | nil => exact ⟨s, step_idle hp, .inr ⟨by simp, by rw [List.tail_nil, ← hp]⟩⟩
  | cons input rest =>
    cases input with
    | reset => exact ⟨_, step_reset hp, .inl ⟨rfl, assertReset_fault _, assertReset_hist _⟩⟩
    | command tr =>
      have hignored : step s = .next { s with port := rest } :=
        (stepRunsThePresentedCommand s tr rest hp).trans (exec_faulted _ hf)
      exact ⟨_, hignored, .inr ⟨by simp, rfl⟩⟩

/-! ### The lifecycle modes -/

theorem mode_eq_unbound_iff {s : State} : s.mode = .unbound ↔ s.fault = false ∧ s.bound = false := by
  cases hf : s.fault <;> cases hb : s.bound <;> simp [State.mode, hf, hb]

theorem mode_eq_ready_iff {s : State} : s.mode = .ready ↔ s.fault = false ∧ s.bound = true := by
  cases hf : s.fault <;> cases hb : s.bound <;> simp [State.mode, hf, hb]

theorem mode_eq_faulted_iff {s : State} : s.mode = .faulted ↔ s.fault = true := by
  cases hf : s.fault <;> cases hb : s.bound <;> simp [State.mode, hf, hb]

@[simp] theorem raiseFault_mode (code : Cause) (s : State) : (raiseFault code s).mode = .faulted := rfl

/-- Settles O25: a mode fixes the flags, and each cell of the table is the equation of its command for these flags. -/
theorem lifecycleModes : Obligations.LifecycleModes := by
  refine ⟨fun s hmode => ?unbound, fun s hmode => ?ready, fun s hmode i => ?faulted, fun s => ?reset⟩
  case unbound =>
    obtain ⟨hf, hb⟩ := mode_eq_unbound_iff.mp hmode
    exact ⟨execNop_eq s, ⟨_, execInit_binds hf hb, mode_eq_ready_iff.mpr ⟨hf, rfl⟩⟩,
      fun blocks => ⟨_, execProcess_uninit hf hb, raiseFault_mode _ s, raiseFault_cause s _⟩,
      ⟨_, execRsvd_illegal hf, raiseFault_mode _ s, raiseFault_cause s _⟩⟩
  case ready =>
    obtain ⟨hf, hb⟩ := mode_eq_ready_iff.mp hmode
    exact ⟨execNop_eq s, ⟨_, execInit_reinit hf hb, raiseFault_mode _ s, raiseFault_cause s _⟩,
      fun blocks hl hs => ⟨_, execProcess_runs hf hb hl hs, mode_eq_ready_iff.mpr ⟨hf, hb⟩⟩,
      ⟨_, execRsvd_illegal hf, raiseFault_mode _ s, raiseFault_cause s _⟩⟩
  case faulted => exact exec_faulted i (mode_eq_faulted_iff.mp hmode)
  case reset => exact mode_eq_unbound_iff.mpr ⟨assertReset_fault s, assertReset_bound s⟩

end Sys2Proof.Proofs

/-! ## Reset and bring-up -/

namespace Sys2Proof.Proofs

open Sys2Proof.Machine

/-- Settles O2: the step is `assertReset`, which fills the history (`fillerHistory_word`) and writes the three flags
besides. -/
theorem resetInputRestoresTheConstructedState : Obligations.ResetInputRestoresTheConstructedState :=
  fun _ _ hport => ⟨_, step_reset hport, rfl, assertReset_shaped _, fun _ hc _ hw => fillerHistory_word rfl hc hw⟩

/-- A step that takes an `INIT` off the port of an unbound block binds the tables. -/
theorem step_init {s : State} {rest : List HostInput} (hf : s.fault = false) (hb : s.bound = false)
    (hport : s.port = .command (encode .init) :: rest) : step s = .next { s with bound := true, port := rest } := by
  rw [stepRunsThePresentedCommand s _ rest hport, decode_encode]
  exact execInit_binds (s := { s with port := rest }) hf hb

/-- `run_succ_of_step` for the machine behind the interface: a run goes on from where `step` answers. -/
theorem core_run_succ {s t : State} (h : step s = .next t) (k : Nat) : core.run (k + 1) s = core.run k t :=
  run_succ_of_step (M := core) h k

/-- An unbound block that is presented `INIT` and then a `PROCESS` of the right shape binds the tables and runs the
lanes. -/
theorem run_init_process {s : State} {blocks : List Word} {rest : List HostInput} (hf : s.fault = false)
    (hb : s.bound = false) (hs : s.Shaped) (hl : blocks.length = s.cfg.nch)
    (hport : s.port = .command (encode .init) :: .command (encode (.process blocks)) :: rest) :
    core.run 2 s = .next (processLanes blocks { s with bound := true, port := rest }) := by
  have hprocess := step_process
    (s := { s with bound := true, port := .command (encode (.process blocks)) :: rest }) ⟨⟨hf, rfl⟩, hl, hs⟩ rfl
  exact (core_run_succ (step_init hf hb hport) 1).trans (core_run_succ hprocess 0)

/-- Settles O32: whatever the state, reset leaves a shaped unbound block without a fault (`step_reset`), from which `INIT`
and the `PROCESS` run (`run_init_process`). -/
theorem bringUpReachesReady : Obligations.BringUpReachesReady := by
  intro s blocks rest hl hport
  have hshape : State.Shaped { assertReset s with bound := true, port := rest } := assertReset_shaped s
  have hrun : core.run 3 s = .next (processLanes blocks { assertReset s with bound := true, port := rest }) :=
    (core_run_succ (step_reset hport) 2).trans (run_init_process rfl rfl hshape hl rfl)
  exact ⟨_, _, hrun, processLanes_results _ blocks, ⟨rfl, rfl⟩, processLanes_shaped hshape hl,
    processLanes_port _ blocks⟩

end Sys2Proof.Proofs
